-- ==== Sys2Proof/Word.lean ====
section
/-! DEFINITION. The block's values: command words, symbol codes, symbols, frames and bit lists (spec/00_scope.md
R5, R6, R7; spec/10_state.md R18, R19). -/

namespace Sys2Proof

/-- One serialised command, CMD_W = 48 bits, bit 0 least significant (R5, R45). -/
abbrev CommandWord := BitVec 48

/-- A symbol's code on `rd_sym` and in `FRAME_OUT`, SYM_W = 2 bits (R5, R38). -/
abbrev SymbolCode := BitVec 2

/-- A symbol is exactly one of three values; there is no fourth (R19). -/
inductive Symbol where
  | zero
  | one
  | marker
  deriving DecidableEq, Repr

/-- FRAME_LEN = 60 symbols, indexed by position 0..59 (R5, R18). -/
abbrev Frame := Vector Symbol 60

/-- A bit list: the first element is the one placed at the lowest frame position (R7). -/
abbrev Bits := List Bool

end Sys2Proof
end

