-- ==== Sys2Proof/Syntax.lean ====
section
/-! DEFINITION. What the host can say to the block in one step: the four commands (spec/30_encoding.md R45 to R49),
the raw port values (spec/10_state.md R23), the two forms in which a step's input is given, and a line of the
assembler's notation (R51). -/

namespace Sys2Proof

/-- The six input values of ENCODE (R14, R23), each as wide as its port (R5). `dow` is Monday = 0 .. Sunday = 6. -/
structure Timestamp where
  year : BitVec 16
  month : BitVec 4
  day : BitVec 5
  hour : BitVec 5
  minute : BitVec 6
  dow : BitVec 3
  deriving DecidableEq, Repr

/-- A command with the values of the operand ports it reads: one constructor per row of the opcode table (R46).
The operand types are the port widths, so a value that no port can carry is no term of this type. -/
inductive Instr where
  | nop
  | encode (t : Timestamp)
  | clear
  | read (pos : BitVec 6)
  deriving DecidableEq, Repr

/-- The command a value of `cmd` selects (R46). -/
inductive Opcode where
  | nop
  | encode
  | clear
  | read
  deriving DecidableEq, Repr

/-- The input ports in one step (R23). -/
structure Ports where
  cmd : BitVec 2
  tsYear : BitVec 16
  tsMonth : BitVec 4
  tsDay : BitVec 5
  tsHour : BitVec 5
  tsMinute : BitVec 6
  tsDow : BitVec 3
  rdPos : BitVec 6
  rst : Bool
  deriving DecidableEq, Repr

/-- What the environment presents in one step: values on the ports, or a serialised command word (R45), which the
decoder turns into port values or refuses (R50). -/
inductive StepInput where
  | ports (p : Ports)
  | word (w : CommandWord)
  deriving DecidableEq, Repr

/-- A step is one command applied to the block, or one reset (R12). -/
inductive Event where
  | reset
  | command (i : Instr)
  deriving DecidableEq, Repr

/-- Why the decoder refuses a word: a bit that its command's format requires to be 0 is 1, so the word "spells no
command" (R50). -/
inductive DecodeReject where
  | mustBeZero (op : Opcode)
  deriving DecidableEq, Repr

/-- One line of the assembler's notation, its operands as the decimal numbers written (R51). -/
inductive AsmLine where
  | encode (year month day hour minute dow : Nat)
  | read (pos : Nat)
  | clear
  | nop
  | reset
  | readAll
  deriving DecidableEq, Repr

end Sys2Proof
end

