-- ==== Sys2Proof/WellFormed.lean ====
section
/-! DEFINITION. Well-formed terms. A term of `Instr` is well-formed by its type: each operand has its port's width
(spec/10_state.md R23), and an operand outside its calendar range is still a valid command (spec/30_encoding.md R50).
What can be ill-formed is a line of the assembler, whose operands are numbers of any size (R51). -/

namespace Sys2Proof

/-- A number fits a port of `width` bits. -/
def fitsPort (width n : Nat) : Bool := n < 2 ^ width

/-- "An operand too large for its port width is an assembly error"; one that fits its port but lies outside its
calendar range assembles (R51). -/
def AsmLine.wf : AsmLine → Bool
  | .encode year month day hour minute dow =>
    fitsPort 16 year && fitsPort 4 month && fitsPort 5 day && fitsPort 5 hour && fitsPort 6 minute && fitsPort 3 dow
  | .read pos => fitsPort 6 pos
  | .clear => true
  | .nop => true
  | .reset => true
  | .readAll => true

end Sys2Proof
end

