-- ==== Sys2Proof/Decode.lean ====
section
/-! DEFINITION. From a step's input to the command it presents: the port map and the decoder of command words, then
the encoder written from the same tables (spec/30_encoding.md R45 to R50, R52). -/

namespace Sys2Proof

/-- The command map: all four values of `cmd` are assigned and none is reserved (R46). -/
def Opcode.ofCmd (c : BitVec 2) : Opcode :=
  if c = 0b00#2 then .nop
  else if c = 0b01#2 then .encode
  else if c = 0b10#2 then .clear
  else .read

/-- The `cmd` value that selects a command (R46). -/
def Opcode.cmd : Opcode → BitVec 2
  | .nop => 0b00#2
  | .encode => 0b01#2
  | .clear => 0b10#2
  | .read => 0b11#2

/-- The command word's `cmd` field, W[1:0] (R45). -/
def wordOpcode (w : CommandWord) : Opcode := Opcode.ofCmd (w.extractLsb' 0 2)

/-- The must-be-0 bits of a command's format are 0: [47:41] in format E, [47:8] in format R, [47:2] in format Z
(R47, R48, R49). -/
def mustBeZeroHolds (op : Opcode) (w : CommandWord) : Bool :=
  match op with
  | .encode => w.extractLsb' 41 7 == 0#7
  | .read => w.extractLsb' 8 40 == 0#40
  | .nop => w.extractLsb' 2 46 == 0#46
  | .clear => w.extractLsb' 2 46 == 0#46

/-- A command word is canonical when its must-be-0 bits are 0 (R50). -/
def canonical (w : CommandWord) : Bool := mustBeZeroHolds (wordOpcode w) w

/-- The operand fields of format E (R47). -/
def wordTimestamp (w : CommandWord) : Timestamp where
  year := w.extractLsb' 2 16
  month := w.extractLsb' 18 4
  day := w.extractLsb' 22 5
  hour := w.extractLsb' 27 5
  minute := w.extractLsb' 32 6
  dow := w.extractLsb' 38 3

/-- The fields of a word, read by the format of its command (R47, R48, R49). -/
def wordFields (op : Opcode) (w : CommandWord) : Instr :=
  match op with
  | .nop => .nop
  | .encode => .encode (wordTimestamp w)
  | .clear => .clear
  | .read => .read (w.extractLsb' 2 6)

/-- The decoder reads W[1:0] and then the fields of that command's format (R52); it takes only canonical words and
refuses every other word (R50). Operands outside their calendar ranges decode. -/
def decode (w : CommandWord) : Except DecodeReject Instr :=
  if canonical w then .ok (wordFields (wordOpcode w) w) else .error (.mustBeZero (wordOpcode w))

/-- The command the ports present: `cmd` selects it, and it takes the ports it reads; a port it does not read has no
effect (R23, R46). -/
def portCommand (p : Ports) : Instr :=
  match Opcode.ofCmd p.cmd with
  | .nop => .nop
  | .encode => .encode ⟨p.tsYear, p.tsMonth, p.tsDay, p.tsHour, p.tsMinute, p.tsDow⟩
  | .clear => .clear
  | .read => .read p.rdPos

/-- What a step's input presents: with `rst = 1` a reset, the command of the same step being ignored (R85, R89), else
the command on the ports or the one a command word spells. -/
def eventOf : StepInput → Except DecodeReject Event
  | .ports p => .ok (if p.rst then .reset else .command (portCommand p))
  | .word w =>
    match decode w with
    | .ok i => .ok (.command i)
    | .error r => .error r

/-- The opcode of a command. -/
def Instr.opcode : Instr → Opcode
  | .nop => .nop
  | .encode _ => .encode
  | .clear => .clear
  | .read _ => .read

/-- The canonical word of a command, the bit patterns of R47, R48 and R49 read from the most significant bit. -/
def encode : Instr → CommandWord
  | .nop => 0#46 ++ Opcode.nop.cmd
  | .encode t => 0#7 ++ t.dow ++ t.minute ++ t.hour ++ t.day ++ t.month ++ t.year ++ Opcode.encode.cmd
  | .clear => 0#46 ++ Opcode.clear.cmd
  | .read pos => 0#40 ++ pos ++ Opcode.read.cmd

/-- Every port at 0 but `cmd`. -/
def quietPorts (op : Opcode) : Ports := ⟨op.cmd, 0, 0, 0, 0, 0, 0, 0, false⟩

/-- The port values a command stands for, the ports it does not read at 0 (R45). -/
def commandPorts : Instr → Ports
  | .nop => quietPorts .nop
  | .encode t => ⟨Opcode.encode.cmd, t.year, t.month, t.day, t.hour, t.minute, t.dow, 0, false⟩
  | .clear => quietPorts .clear
  | .read pos => { quietPorts .read with rdPos := pos }

/-- The 48-bit word held by the low `nbits` bits of `w`; none where they do not fit, since there is one
command-word length (R52). -/
def tableWord (nbits w : Nat) : Option CommandWord :=
  if w % 2 ^ nbits < 2 ^ 48 then some (BitVec.ofNat 48 (w % 2 ^ nbits)) else none

/-- The instruction the decoder reads from a word whose low `nbits` bits are those of `w`, the bits above them 0. -/
def decodeTableWord (nbits w : Nat) : Option Instr :=
  match tableWord nbits w with
  | some cw => (decode cw).toOption
  | none => none

end Sys2Proof
end

