-- ==== Sys2Proof/Config.lean ====
section
/-! DEFINITION. What an implementation fixes (the parameter WDAY_POS, spec/00_scope.md R5) and the free values: the
outputs the spec leaves unspecified (spec/10_state.md R25, R26). The free values are opaque constants without a body:
nothing can be proved about the value they take. -/

namespace Sys2Proof

/-- WDAY_POS, the first position of the weekday field: 50 or 45 (R5). -/
inductive WdayPos where
  | p50
  | p45
  deriving DecidableEq, Repr

/-- The position itself. -/
def WdayPos.toNat : WdayPos → Nat
  | .p50 => 50
  | .p45 => 45

/-- The block's open parameters; no step changes them (R5). -/
structure Config where
  wdayPos : WdayPos
  deriving DecidableEq, Repr

/-- The default, WDAY_POS = 50 (R5). -/
def Config.default : Config := ⟨.p50⟩

/-- The `rd_sym` port in a step that is not a successful READ: a draw, indexed by the step counter (R26;
spec/93_implementation_defined.md U3). Assumption log 3. -/
opaque Config.freeRdSym : Nat → SymbolCode

/-- The `FRAME_OUT` port while VALID = 0: a fresh draw per step, indexed by the step counter (R25; U2).
Assumption log 3. -/
opaque Config.freeFrameOut : Nat → BitVec 120

end Sys2Proof
end

