-- ==== Sys2Proof/Machine/State.lean ====
section
/-! DEFINITION. The block's state as plain data (spec/10_state.md R18 to R29), the state after reset, and the reasons a
step can stop. The block has no memory, no register file and no program counter (R16, R17, R30). -/

namespace Sys2Proof.Machine

/-- The values of ERRCAUSE (spec/60_exceptions.md R76). All eight 3-bit values are legal (R22). -/
inductive Cause where
  | none
  | monthRange
  | dayRange
  | hourRange
  | minuteRange
  | dowRange
  | posRange
  | noFrame
  deriving DecidableEq, Repr

/-- The architectural state is `frame`, `valid`, `err` and `errcause` (R28). The other fields are the model's: the
parameter, the result port, the step counter that indexes the draws, and what the environment will present. -/
structure State where
  /-- The open parameters; no step changes them (R5). -/
  cfg : Config
  /-- FRAME. The spec has a model hold it as absent after reset and after CLEAR (R29, U1, D14): `none`. -/
  frame : Option Frame
  /-- VALID (R20). -/
  valid : Bool
  /-- ERR, the sticky fault flag (R21). -/
  err : Bool
  /-- ERRCAUSE, the first cause since the last CLEAR or reset (R22). -/
  errcause : Cause
  /-- The value `rd_sym` carries because the last step was a READ that did not fault; `none` after any other step,
  where the port shows a draw (R26). -/
  rdSym : Option SymbolCode
  /-- Steps taken: the index of the draws on the unspecified outputs (R25, R26). -/
  draws : Nat
  /-- What the environment presents in the coming steps, the next one first; when it is empty the host presents no
  command (R15, R69). -/
  inputs : List StepInput
  deriving DecidableEq, Repr

/-- The state right after reset (R29), with the default parameter (R5) and nothing presented. -/
def State.reset : State where
  cfg := Config.default
  frame := none
  valid := false
  err := false
  errcause := .none
  rdSym := none
  draws := 0
  inputs := []

/-- Reasons for the machine to stop: there are none. The block has no stuck state and no hang, and a fault of the
spec is an outcome the block records before it takes the next command (R75). -/
inductive Fault where
  deriving DecidableEq, Repr

/-- Inputs the model gives no step to. -/
inductive Refusal where
  /-- An instruction without a meaning in the model, by its mnemonic: raised by `exec`'s refused arms, of which there
  are none. Safe: the model stops where the block goes on. -/
  | notModelled (mnemonic : String)
  /-- A command word that spells no command: raised by the step's decoder. The word never reaches the block (R50,
  R75). Safe: the block takes no step on it either. -/
  | spellsNoCommand (r : DecodeReject)
  deriving DecidableEq, Repr

/-- The outcome of a command or a step. -/
abbrev Result := Host.Outcome State Fault Refusal

end Sys2Proof.Machine
end

