-- ==== Sys2Proof/Machine/Operands.lean ====
section
/-! DEFINITION. The operand checks of ENCODE and READ and READ's operand access (spec/60_exceptions.md R77, R78;
spec/20_memory.md R31; spec/41_frame_access.md R67). -/

namespace Sys2Proof.Machine

/-- `EncodeCheck`: the lowest code whose condition holds, or NONE (R77). -/
def encodeCheck (t : Timestamp) : Cause :=
  if t.month.toNat < 1 ∨ t.month.toNat > 12 then .monthRange
  else if t.day.toNat < 1 ∨ t.day.toNat > 31 then .dayRange
  else if t.hour.toNat > 23 then .hourRange
  else if t.minute.toNat > 59 then .minuteRange
  else if t.dow.toNat > 6 then .dowRange
  else .none

/-- The frame FRAME holds in the spec's sense: FRAME when VALID = 1 (R20). FRAME absent while VALID = 1 is a state no
run reaches (R73, R74); nothing is held there either, so that reading it faults (D14; assumption log 2). -/
def State.frameHeld (s : State) : Option Frame := if s.valid then s.frame else none

/-- READ's operand: the position is checked first and never wrapped or truncated (R31), VALID second (R78). -/
def readOperand (pos : BitVec 6) (held : Option Frame) : Except Cause Symbol :=
  if h : pos.toNat < 60 then
    match held with
    | some f => .ok f[pos.toNat]
    | none => .error .noFrame
  else .error .posRange

/-- The cause code a command reports in a state, NONE where it does not fault (R76, R77, R78). -/
def faultOf (i : Instr) (s : State) : Cause :=
  match i with
  | .nop => .none
  | .encode t => encodeCheck t
  | .clear => .none
  | .read pos =>
    match readOperand pos s.frameHeld with
    | .ok _ => .none
    | .error c => c

end Sys2Proof.Machine
end

