-- ==== Sys2Proof/Machine/Flags.lean ====
section
/-! DEFINITION. The status flags: cause codes, the STATUS view and the rule that keeps the first cause
(spec/10_state.md R20 to R22, R27; spec/60_exceptions.md R76, R79). -/

namespace Sys2Proof.Machine

/-- A cause's code, the value of ERRCAUSE (R76). -/
def causeCode : Cause → BitVec 3
  | .none => 0#3
  | .monthRange => 1#3
  | .dayRange => 2#3
  | .hourRange => 3#3
  | .minuteRange => 4#3
  | .dowRange => 5#3
  | .posRange => 6#3
  | .noFrame => 7#3

/-- The cause a code names; all eight codes are legal (R22, R76). -/
def codeCause (c : BitVec 3) : Cause :=
  if c = 0#3 then .none
  else if c = 1#3 then .monthRange
  else if c = 2#3 then .dayRange
  else if c = 3#3 then .hourRange
  else if c = 4#3 then .minuteRange
  else if c = 5#3 then .dowRange
  else if c = 6#3 then .posRange
  else .noFrame

/-- STATUS: VALID at [0], ERR at [1], ERRCAUSE at [4:2] (R27). -/
def statusWord (valid err : Bool) (cause : Cause) : BitVec 5 :=
  causeCode cause ++ BitVec.ofBool err ++ BitVec.ofBool valid

/-- ERRCAUSE after a fault with code `c`: the first fault is kept (R79). -/
def causeAfterFault (err : Bool) (old c : Cause) : Cause := if err then old else c

end Sys2Proof.Machine
end

