-- ==== Sys2Proof/Machine/Bcd.lean ====
section
/-! DEFINITION. Bit lists and the BCD helper (spec/00_scope.md R7; spec/40_frame_encode.md R53, R54). -/

namespace Sys2Proof.Machine

/-- `last_k(L)`: the last k elements of L, in order (R7). -/
def lastK (k : Nat) (l : Bits) : Bits := l.drop (l.length - k)

/-- A decimal digit's four bits, weights 8, 4, 2, 1 (R53). -/
def nibble (g : Nat) : Bits := [g.testBit 3, g.testBit 2, g.testBit 1, g.testBit 0]

/-- `bcd(value, digits)`: the most significant decimal digit first (R53). Total, as R53's pseudocode is: outside
`value < 10^digits` it gives the BCD of `value mod 10^digits`, which no ENCODE reaches (R54; assumption log 6). -/
def bcd (value : Nat) : Nat → Bits
  | 0 => []
  | d + 1 => nibble ((value / 10 ^ d) % 10) ++ bcd value d

end Sys2Proof.Machine
end

