-- ==== Sys2Proof/Machine/Fields.lean ====
section
/-! DEFINITION. The field packers (spec/40_frame_encode.md R55 to R61). -/

namespace Sys2Proof.Machine

/-- year2 = year mod 100; the year is never checked (R55). -/
def year2 (t : Timestamp) : Nat := t.year.toNat % 100

/-- YF, 8 bits (R55). -/
def yearField (t : Timestamp) : Bits := bcd (year2 t) 2

/-- MF, 5 bits: the tens digit's bit 0, then the units digit (R56). -/
def monthField (t : Timestamp) : Bits := lastK 5 (bcd t.month.toNat 2)

/-- DF, 6 bits (R57). -/
def dayField (t : Timestamp) : Bits := lastK 6 (bcd t.day.toNat 2)

/-- HF, 6 bits (R58). -/
def hourField (t : Timestamp) : Bits := lastK 6 (bcd t.hour.toNat 2)

/-- NF, 7 bits (R59). -/
def minuteField (t : Timestamp) : Bits := lastK 7 (bcd t.minute.toNat 2)

/-- The weekday in JJY's convention, Sunday = 0 .. Saturday = 6 (R60). -/
def weekday (t : Timestamp) : Nat := (t.dow.toNat + 1) % 7

/-- WF, 3 bits, least significant bit first (R61). -/
def weekdayField (t : Timestamp) : Bits := [(weekday t).testBit 0, (weekday t).testBit 1, (weekday t).testBit 2]

end Sys2Proof.Machine
end

