-- ==== Sys2Proof/Machine/Frames.lean ====
section
/-! DEFINITION. Symbol codes, the packing of a frame, frame strings, and the frame function (spec/00_scope.md R10, R11;
spec/30_encoding.md R38 to R40; spec/40_frame_encode.md R62). -/

namespace Sys2Proof.Machine

/-- The symbol code (R38). -/
def symbolCode : Symbol → SymbolCode
  | .zero => 0b00#2
  | .one => 0b01#2
  | .marker => 0b10#2

/-- The symbol a code spells; `11` is reserved and spells none (R39). -/
def codeSymbol (c : SymbolCode) : Option Symbol :=
  if c = 0b00#2 then some .zero
  else if c = 0b01#2 then some .one
  else if c = 0b10#2 then some .marker
  else none

/-- Symbols packed two bits each, the first at the least significant end (R40). -/
def packSymbols : List Symbol → Nat
  | [] => 0
  | s :: rest => (symbolCode s).toNat + 4 * packSymbols rest

/-- FRAME_OUT[2p+1:2p] = code(FRAME[p]) (R40). -/
def packFrame (f : Frame) : BitVec 120 := BitVec.ofNat 120 (packSymbols f.toList)

/-- The two bits of position `p` of a FRAME_OUT word (R40). -/
def frameOutCode (w : BitVec 120) (p : Nat) : SymbolCode := w.extractLsb' (2 * p) 2

/-- The frame a FRAME_OUT word spells: a word that meets `11` is refused (R39). -/
def unpackFrame (w : BitVec 120) : Option Frame :=
  if ∀ p : Fin 60, (codeSymbol (frameOutCode w p)).isSome then
    some (Vector.ofFn fun p : Fin 60 => (codeSymbol (frameOutCode w p)).getD .zero)
  else none

/-- A symbol's character in a frame string (R10). -/
def symbolChar : Symbol → Char
  | .zero => '0'
  | .one => '1'
  | .marker => 'M'

/-- A frame as its frame string, position 0 first (R10). -/
def frameChars (f : Frame) : List Char := f.toList.map symbolChar

/-- `bit(0) = ZERO` and `bit(1) = ONE` (R11). -/
def bitSymbol (b : Bool) : Symbol := if b then .one else .zero

/-- MARKER_SET (R5, R42). -/
def markerSet : List Nat := [0, 9, 19, 29, 39, 49, 59]

/-- Set MARKER at each listed position. -/
def setMarkers : List Nat → Frame → Frame
  | [], f => f
  | p :: rest, f => setMarkers rest (f.setIfInBounds p .marker)

/-- `place(b, L)`: the bits of L at positions b, b+1, ... (R62). -/
def place (b : Nat) : Bits → Frame → Frame
  | [], f => f
  | x :: rest, f => place (b + 1) rest (f.setIfInBounds b (bitSymbol x))

/-- Steps 1 and 2 of R62: every position ZERO, then the markers. -/
def frameSkeleton : Frame := setMarkers markerSet (Vector.replicate 60 .zero)

/-- `EncodeFrame` (R62). The weekday is placed after the minute, so with WDAY_POS = 45 it overwrites the minute's
positions 45 and 46 (R44). -/
def encodeFrame (wp : WdayPos) (t : Timestamp) : Frame :=
  let f := place 1 (yearField t) frameSkeleton
  let f := place 10 (monthField t) f
  let f := place 20 (dayField t) f
  let f := place 30 (hourField t) f
  let f := place 40 (minuteField t) f
  place wp.toNat (weekdayField t) f

end Sys2Proof.Machine
end

