-- ==== Sys2Proof/Machine/Ops.lean ====
section
/-! DEFINITION. The shared operations on the state: a step's start, taking a fault, returning from the fault state,
loading the frame and driving `rd_sym` (spec/10_state.md R26; spec/60_exceptions.md R79, R80, R82). -/

namespace Sys2Proof.Machine

/-- A new step begins: `rd_sym` no longer carries the value of an earlier READ, and both unspecified outputs take a
fresh draw (R25, R26). -/
def State.newStep (s : State) : State := { s with rdSym := none, draws := s.draws + 1 }

/-- Recording, the same for every fault: the first cause is kept and ERR is set (R79). -/
def State.recordFault (c : Cause) (s : State) : State :=
  { s with errcause := causeAfterFault s.err s.errcause c, err := true }

/-- `raise Fault(c)` in a command: R79's recording and R80's effects, and nothing else (R9). A faulting ENCODE clears
VALID and leaves FRAME unwritten; any other leaves both. -/
def State.raiseFault (source : Opcode) (c : Cause) (s : State) : State :=
  match source with
  | .encode => { s.newStep.recordFault c with valid := false }
  | .nop => s.newStep.recordFault c
  | .clear => s.newStep.recordFault c
  | .read => s.newStep.recordFault c

/-- The return to the reset state, by CLEAR or by reset: the flags 0 and FRAME absent (R29, R68, R82, R89). -/
def State.returnToReset (s : State) : State :=
  { s.newStep with frame := none, valid := false, err := false, errcause := .none }

/-- FRAME and VALID after a successful ENCODE: all 60 entries at once, ERR and ERRCAUSE unchanged (R18, R63). -/
def State.loadFrame (f : Frame) (s : State) : State := { s.newStep with frame := some f, valid := true }

/-- `rd_sym <- code(symbol)` (R67). -/
def State.driveRdSym (y : Symbol) (s : State) : State := { s.newStep with rdSym := some (symbolCode y) }

end Sys2Proof.Machine
end

