-- ==== Sys2Proof/Machine/Access.lean ====
section
/-! DEFINITION. The meanings of READ, CLEAR and NOP (spec/41_frame_access.md R67 to R69). -/

namespace Sys2Proof.Machine

/-- READ: the symbol at one position, or POS_RANGE or NO_FRAME (R67, R78). -/
def execRead (pos : BitVec 6) (s : State) : Result :=
  match readOperand pos s.frameHeld with
  | .ok y => .next (s.driveRdSym y)
  | .error c => .next (s.raiseFault .read c)

/-- CLEAR: the block returns to its reset state (R68). -/
def execClear (s : State) : Result := .next s.returnToReset

/-- NOP: no state is written; the step itself leaves `rd_sym` unspecified (R69). -/
def execNop (s : State) : Result := .next s.newStep

end Sys2Proof.Machine
end

