-- ==== Sys2Proof/Machine/Encode.lean ====
section
/-! DEFINITION. The meaning of ENCODE (spec/40_frame_encode.md R63). -/

namespace Sys2Proof.Machine

/-- ENCODE: the checks of R77 before any part of the frame, then the fault of R80 or the frame of R62 (R63). -/
def execEncode (t : Timestamp) (s : State) : Result :=
  if encodeCheck t = .none then .next (s.loadFrame (encodeFrame s.cfg.wdayPos t))
  else .next (s.raiseFault .encode (encodeCheck t))

end Sys2Proof.Machine
end

