-- ==== Sys2Proof/Machine/Dispatch.lean ====
section
/-! DEFINITION. One arm per command, each a direct call of its meaning. -/

namespace Sys2Proof.Machine

def exec (i : Instr) (s : State) : Host.Outcome State Fault Refusal :=
  match i with
  | .nop => Sys2Proof.Machine.execNop s
  | .encode t => Sys2Proof.Machine.execEncode t s
  | .clear => Sys2Proof.Machine.execClear s
  | .read pos => Sys2Proof.Machine.execRead pos s

end Sys2Proof.Machine
end

