-- ==== Sys2Proof/Machine/Present.lean ====
section
/-! DEFINITION. What one step does with what is presented: a command, a reset, a word that spells no command, or nothing
(spec/00_scope.md R12; spec/60_exceptions.md R75, R85; spec/70_reset_and_hazards.md R89; spec/41_frame_access.md R69). -/

namespace Sys2Proof.Machine

/-- A step is one command or one reset (R12). -/
def doEvent (e : Event) (s : State) : Result :=
  match e with
  | .reset => .next s.returnToReset
  | .command i => exec i s

/-- The step on a presented input: a word that spells no command never reaches the block (R50, R75). -/
def present (input : StepInput) (s : State) : Result :=
  match eventOf input with
  | .ok e => doEvent e s
  | .error r => .refused (.spellsNoCommand r)

/-- The next presented input is taken; when there is none the block takes the step of a NOP, "the step the block takes
when the host presents no command" (R69). -/
def presentNext (s : State) : Result :=
  match s.inputs with
  | [] => exec .nop s
  | input :: rest => present input { s with inputs := rest }

/-- The state with a word of the opcode table presented next, before what was already to be presented. -/
def State.presentWord (s : State) (nbits w : Nat) : State :=
  match tableWord nbits w with
  | some cw => { s with inputs := .word cw :: s.inputs }
  | none => s

end Sys2Proof.Machine
end

