-- ==== Sys2Proof/Machine/Step.lean ====
section
/-! DEFINITION. One step of the block, and the presentation of a table word as the next step's command. -/

namespace Sys2Proof.Machine

/-- One step: one command applied to the block, or one reset (spec/00_scope.md R12). -/
def step (s : State) : Host.Outcome State Fault Refusal := presentNext s

/-- The block fetches nothing: it executes the command presented in the step (spec/10_state.md R17). So the word is
put at the head of what the host presents. -/
def State.withFetchWord (s : State) (nbits w : Nat) : State := s.presentWord nbits w

end Sys2Proof.Machine
end

