-- ==== Sys2Proof/Machine/Assembler.lean ====
section
/-! DEFINITION. The assembler's notation (spec/30_encoding.md R51): from a line of text to a line of syntax, and from that
to the step inputs it stands for. -/

namespace Sys2Proof.Machine

/-- Why a line does not assemble. -/
inductive AsmError where
  /-- The line is none of the forms of R51. -/
  | notALine
  /-- An operand is too large for its port (R51). -/
  | operandTooLarge
  deriving DecidableEq, Repr

/-- The step in which `rst = 1`; the command ports hold a NOP, which that step ignores (R51, R85). -/
def resetInput : StepInput := .ports { quietPorts .nop with rst := true }

/-- A command as a presented word. -/
def commandInput (i : Instr) : StepInput := .word (encode i)

/-- The step inputs of a line whose operands fit their ports: READALL is the 60 READs in order, RESET has no command
word (R51). -/
def lineInputs : AsmLine → List StepInput
  | .encode year month day hour minute dow =>
    [commandInput (.encode ⟨BitVec.ofNat 16 year, BitVec.ofNat 4 month, BitVec.ofNat 5 day, BitVec.ofNat 5 hour,
      BitVec.ofNat 6 minute, BitVec.ofNat 3 dow⟩)]
  | .read pos => [commandInput (.read (BitVec.ofNat 6 pos))]
  | .clear => [commandInput .clear]
  | .nop => [commandInput .nop]
  | .reset => [resetInput]
  | .readAll => (List.range 60).map fun p => commandInput (.read (BitVec.ofNat 6 p))

/-- A line assembles when every operand fits its port (R51). -/
def assembleLine (l : AsmLine) : Except AsmError (List StepInput) :=
  if l.wf then .ok (lineInputs l) else .error .operandTooLarge

/-- Blanks within a line (assumption log 9). -/
def isBlank (c : Char) : Bool := c == ' ' || c == '\t' || c == '\r'

/-- A text without the blanks at its ends. -/
def trimBlanks (cs : List Char) : List Char := ((cs.dropWhile isBlank).reverse.dropWhile isBlank).reverse

/-- A decimal numeral (R51). -/
def parseNumeral (cs : List Char) : Option Nat :=
  if cs.isEmpty || !cs.all Char.isDigit then none
  else some (cs.foldl (fun acc c => 10 * acc + (c.toNat - '0'.toNat)) 0)

/-- The pieces of a text between separators. -/
def splitAtChar (sep : Char) : List Char → List (List Char)
  | [] => [[]]
  | c :: rest =>
    if c = sep then [] :: splitAtChar sep rest
    else
      match splitAtChar sep rest with
      | [] => [[c]]
      | piece :: pieces => (c :: piece) :: pieces

/-- Decimal operands with commas between them; no text is no operand (R51). -/
def parseOperands (cs : List Char) : Option (List Nat) :=
  if (trimBlanks cs).isEmpty then some []
  else (splitAtChar ',' cs).mapM fun piece => parseNumeral (trimBlanks piece)

/-- The line forms of R51, by mnemonic and operands. -/
def lineOf (mnemonic : List Char) (operands : List Nat) : Option AsmLine :=
  match operands with
  | [year, month, day, hour, minute, dow] =>
    if mnemonic = "ENCODE".toList then some (.encode year month day hour minute dow) else none
  | [pos] => if mnemonic = "READ".toList then some (.read pos) else none
  | [] =>
    if mnemonic = "CLEAR".toList then some .clear
    else if mnemonic = "NOP".toList then some .nop
    else if mnemonic = "RESET".toList then some .reset
    else if mnemonic = "READALL".toList then some .readAll
    else none
  | _ => none

/-- One line of text: `;` starts a comment, and a line with nothing before it stands for no step (R51; assumption
log 9). -/
def parseLine (cs : List Char) : Except AsmError (Option AsmLine) :=
  let body := trimBlanks (cs.takeWhile (· != ';'))
  if body.isEmpty then .ok none
  else
    let mnemonic := body.takeWhile fun c => !isBlank c
    match parseOperands (body.dropWhile fun c => !isBlank c) with
    | none => .error .notALine
    | some operands =>
      match lineOf mnemonic operands with
      | some l => .ok (some l)
      | none => .error .notALine

/-- One line of text to its step inputs. -/
def assembleText (cs : List Char) : Except AsmError (List StepInput) :=
  match parseLine cs with
  | .ok (some l) => assembleLine l
  | .ok none => .ok []
  | .error e => .error e

/-- A program's lines, one command per line (R51). -/
def assembleLines : List (List Char) → Except AsmError (List StepInput)
  | [] => .ok []
  | l :: rest =>
    match assembleText l, assembleLines rest with
    | .ok now, .ok later => .ok (now ++ later)
    | .error e, _ => .error e
    | .ok _, .error e => .error e

/-- A program's text. -/
def assemble (cs : List Char) : Except AsmError (List StepInput) := assembleLines (splitAtChar '\n' cs)

end Sys2Proof.Machine
end

