-- ==== Sys2Proof/Machine/Readback.lean ====
section
/-! DEFINITION. The decoder of R66 (spec/40_frame_encode.md): a frame's fields read back as numbers. It is an observer's
function; no command uses it. -/

namespace Sys2Proof.Machine

/-- `bin(L)`: the value of a bit list read most significant bit first (R66). -/
def bin (l : Bits) : Nat := l.foldl (fun acc b => 2 * acc + b.toNat) 0

/-- The value of a bit list read least significant bit first, as R66 reads the weekday. -/
def binLsbFirst : Bits → Nat
  | [] => 0
  | b :: rest => b.toNat + 2 * binLsbFirst rest

/-- `dec(L) = 10 * bin(L without its last 4 elements) + bin(last_4(L))` (R66). -/
def dec (l : Bits) : Nat := 10 * bin (l.take (l.length - 4)) + bin (lastK 4 l)

/-- A data symbol's bit: ONE = 1 and ZERO = 0; MARKER is not a data bit (R19, R66). -/
def symbolBit : Symbol → Option Bool
  | .zero => some false
  | .one => some true
  | .marker => none

/-- `F[a..b]` read as bits (R66); none if a position is outside the frame or holds MARKER. -/
def frameBits (f : Frame) (a b : Nat) : Option Bits :=
  (List.range' a (b + 1 - a)).mapM fun p => f[p]?.bind symbolBit

/-- A BCD field at positions a to b, read back (R66). -/
def readBack (f : Frame) (a b : Nat) : Option Nat := (frameBits f a b).map dec

/-- The weekday at positions a to a+2, read back (R66). -/
def readBackWeekday (f : Frame) (a : Nat) : Option Nat := (frameBits f a (a + 2)).map binLsbFirst

end Sys2Proof.Machine
end

