-- ==== Sys2Proof/Machine/Layout.lean ====
section
/-! DEFINITION. The frame layout as the spec tabulates it, position by position (spec/30_encoding.md R41 to R44). ENCODE
does not use it: `encodeFrame` follows the pseudocode of R62, and that the two agree is a statement. -/

namespace Sys2Proof.Machine

/-- The six values a frame carries (R41). -/
inductive FrameField where
  | year2
  | month
  | day
  | hour
  | minute
  | weekday
  deriving DecidableEq, Repr

/-- A field's decimal value. -/
def FrameField.value (t : Timestamp) : FrameField → Nat
  | .year2 => Machine.year2 t
  | .month => t.month.toNat
  | .day => t.day.toNat
  | .hour => t.hour.toNat
  | .minute => t.minute.toNat
  | .weekday => Machine.weekday t

/-- What a position holds: a marker, a fixed ZERO, or bit `bit` of a field's decimal digit `digit`. -/
inductive Slot where
  | marker
  | zero
  | data (field : FrameField) (digit bit : Nat)
  deriving DecidableEq, Repr

/-- The decimal value a ONE at the position adds to its field (R41). -/
def Slot.weight : Slot → Nat
  | .marker => 0
  | .zero => 0
  | .data _ digit bit => 10 ^ digit * 2 ^ bit

/-- The symbol the position holds for a timestamp. -/
def Slot.symbol (t : Timestamp) : Slot → Symbol
  | .marker => .marker
  | .zero => .zero
  | .data field digit bit => bitSymbol ((field.value t / 10 ^ digit % 10).testBit bit)

/-- The slots of the listed bits of one decimal digit of a field. -/
def slots (field : FrameField) (digit : Nat) (bits : List Nat) : List Slot := bits.map (Slot.data field digit)

/-- A run of fixed ZERO positions. -/
def zeroSlots (n : Nat) : List Slot := List.replicate n Slot.zero

/-- The table's rows for positions 0 to 39, the same for both values of WDAY_POS (R41). -/
def layoutHeadRows : List (List Slot) := [
  [.marker],
  slots .year2 1 [3, 2, 1, 0], slots .year2 0 [3, 2, 1, 0],
  [.marker],
  slots .month 1 [0], slots .month 0 [3, 2, 1, 0],
  zeroSlots 4,
  [.marker],
  slots .day 1 [1, 0], slots .day 0 [3, 2, 1, 0],
  zeroSlots 3,
  [.marker],
  slots .hour 1 [1, 0], slots .hour 0 [3, 2, 1, 0],
  zeroSlots 3,
  [.marker]]

/-- The rows for positions 40 to 59 (R41 for WDAY_POS = 50; R44 for 45, where the weekday takes the places of the
minute's weights 2 and 1). -/
def layoutTailRows : WdayPos → List (List Slot)
  | .p50 => [
    slots .minute 1 [2, 1, 0], slots .minute 0 [3, 2, 1, 0],
    zeroSlots 2,
    [.marker],
    slots .weekday 0 [0, 1, 2],
    zeroSlots 6,
    [.marker]]
  | .p45 => [
    slots .minute 1 [2, 1, 0], slots .minute 0 [3, 2],
    slots .weekday 0 [0, 1, 2],
    zeroSlots 1,
    [.marker],
    zeroSlots 9,
    [.marker]]

/-- The whole table (R41, R44). -/
def layout (wp : WdayPos) : List Slot := (layoutHeadRows ++ layoutTailRows wp).flatten

/-- The positions R43 (for WDAY_POS = 50) and R44 (for 45) fix to ZERO. -/
def zeroPositions : WdayPos → List Nat
  | .p50 => [15, 16, 17, 18, 26, 27, 28, 36, 37, 38, 47, 48, 53, 54, 55, 56, 57, 58]
  | .p45 => [15, 16, 17, 18, 26, 27, 28, 36, 37, 38, 48, 50, 51, 52, 53, 54, 55, 56, 57, 58]

end Sys2Proof.Machine
end

