-- ==== Sys2Proof/Machine/Outputs.lean ====
section
/-! DEFINITION. The output ports, as views of the state after the most recent step (spec/10_state.md R24 to R27). -/

namespace Sys2Proof.Machine

/-- STATUS (R27). -/
def State.statusOut (s : State) : BitVec 5 := statusWord s.valid s.err s.errcause

/-- FRAME_OUT: the packing of FRAME when VALID = 1, a draw otherwise (R25, R40). -/
def State.frameOut (s : State) : BitVec 120 :=
  match s.frameHeld with
  | some f => packFrame f
  | none => Config.freeFrameOut s.draws

/-- `rd_sym`: the value of the READ that was the last step, a draw otherwise (R26). -/
def State.rdSymOut (s : State) : SymbolCode :=
  match s.rdSym with
  | some c => c
  | none => Config.freeRdSym s.draws

end Sys2Proof.Machine
end

