-- ==== Sys2Proof/Safety.lean ====
section
/-! DEFINITION. What a run shows and what holds in every state a run reaches: the observation of a run
(spec/70_reset_and_hazards.md R98), the faults reported along a sequence of steps, and the invariant of the state
(spec/10_state.md R22; spec/30_encoding.md R39; spec/41_frame_access.md R73). -/

namespace Sys2Proof.Machine

/-- What an observer may use after a step: STATUS, FRAME_OUT only where VALID = 1, `rd_sym` only at a successful
READ (R98). -/
structure Observation where
  status : BitVec 5
  frameOut : Option (BitVec 120)
  rdSym : Option SymbolCode
  deriving DecidableEq, Repr

/-- The observation of the state after a step (R98). -/
def State.observe (s : State) : Observation where
  status := s.statusOut
  frameOut := s.frameHeld.map packFrame
  rdSym := s.rdSym

/-- The observation of a run of `n` steps: what is seen after each step (R98). -/
def observations : Nat → State → List Observation
  | 0, _ => []
  | n + 1, s =>
    match step s with
    | .next t => t.observe :: observations n t
    | .fault _ => []
    | .refused _ => []

/-- The event of the next step: what the first input presents, and a NOP when nothing is presented (R12, R69); an
error where the input spells no command. -/
def State.nextEvent (s : State) : Except DecodeReject Event :=
  match s.inputs with
  | [] => .ok (.command .nop)
  | input :: _ => eventOf input

/-- The cause code a step's event reports; a reset reports none (R76, R85). -/
def eventFault (e : Event) (s : State) : Cause :=
  match e with
  | .reset => .none
  | .command i => faultOf i s

/-- The cause codes reported by a sequence of events, in order. -/
def reportedFaults : List Event → State → List Cause
  | [], _ => []
  | e :: rest, s =>
    eventFault e s ::
      match doEvent e s with
      | .next t => reportedFaults rest t
      | .fault _ => []
      | .refused _ => []

/-- An event after which the state is the reset state: CLEAR or a reset (R68, R89). -/
def eventClears : Event → Bool
  | .reset => true
  | .command .clear => true
  | .command .nop => false
  | .command (.encode _) => false
  | .command (.read _) => false

/-- An event that can end the validity of a frame: CLEAR, reset or any ENCODE (R20). -/
def eventEndsFrame : Event → Bool
  | .reset => true
  | .command .clear => true
  | .command (.encode _) => true
  | .command .nop => false
  | .command (.read _) => false

/-- The calendar bounds of R76: what ENCODE's checks let through. A day that the month lacks and a weekday that
disagrees with the date are within them (R77, R92). -/
abbrev inCalendar (t : Timestamp) : Prop :=
  (1 ≤ t.month.toNat ∧ t.month.toNat ≤ 12) ∧ (1 ≤ t.day.toNat ∧ t.day.toNat ≤ 31) ∧ t.hour.toNat ≤ 23 ∧
    t.minute.toNat ≤ 59 ∧ t.dow.toNat ≤ 6

/-- The inputs present exactly these events, in order. -/
abbrev presents (ins : List StepInput) (evs : List Event) : Prop := ins.map eventOf = evs.map Except.ok

/-- The frame rules of R73: MARKER at exactly the marker set, ZERO at the positions of R43 or R44. -/
def frameLegal (wp : WdayPos) (f : Frame) : Prop :=
  ∀ p : Fin 60, (f[p] = .marker ↔ p.val ∈ markerSet) ∧ (p.val ∈ zeroPositions wp → f[p] = .zero)

/-- The invariant: ERRCAUSE is NONE exactly when ERR = 0 (R22), a valid FRAME is present and legal (R73), and the
reserved code is never on `rd_sym` from a READ (R39). -/
structure State.Inv (s : State) : Prop where
  cause : s.errcause = .none ↔ s.err = false
  held : s.valid = true → ∃ f, s.frame = some f ∧ frameLegal s.cfg.wdayPos f
  rdSym : s.rdSym ≠ some 0b11#2

end Sys2Proof.Machine
end

