-- ==== Sys2Proof/Certificates/Slice0/Obligations.lean ====
section
/-! DEFINITION. The statements about the block, each after the rule of spec/ it formalises. -/

open Sys2Proof Sys2Proof.Machine

/-! ## Command words -/

/-- Every command's word decodes to that command, with every operand at every value its port admits: no bit of the
encoding is dropped (R47 to R50). -/
def Obligations.DecodeInvertsEncode : Prop := ∀ i : Instr, decode (encode i) = .ok i

/-- R50: a word whose must-be-0 bits are 0 decodes, a word with a must-be-0 bit at 1 is refused by its command's name,
and every command, whatever its operands, has exactly one word that decodes to it. -/
def Obligations.DecoderTakesExactlyCanonicalWords : Prop :=
  (∀ w : CommandWord,
    let low := if w.toNat % 4 = 1 then 41 else if w.toNat % 4 = 3 then 8 else 2
    ((∀ k, low ≤ k → k < 48 → w.getLsbD k = false) → ∃ i, decode w = .ok i) ∧
    (∀ k, low ≤ k → k < 48 → w.getLsbD k = true → decode w = .error (.mustBeZero (wordOpcode w)))) ∧
  (∀ i : Instr, ∃! w : CommandWord, decode w = .ok i)

/-- R47, R48, R49: which bits of a word select the command, which bits each operand is, and which bits must be 0. -/
def Obligations.DecodedOperandsAreTheWordsBits : Prop :=
  (∀ (w : CommandWord) (t : Timestamp), decode w = .ok (.encode t) ↔
    w.toNat % 2 ^ 2 = 1 ∧ t.year.toNat = w.toNat / 2 ^ 2 % 2 ^ 16 ∧ t.month.toNat = w.toNat / 2 ^ 18 % 2 ^ 4 ∧
    t.day.toNat = w.toNat / 2 ^ 22 % 2 ^ 5 ∧ t.hour.toNat = w.toNat / 2 ^ 27 % 2 ^ 5 ∧
    t.minute.toNat = w.toNat / 2 ^ 32 % 2 ^ 6 ∧ t.dow.toNat = w.toNat / 2 ^ 38 % 2 ^ 3 ∧ w.toNat / 2 ^ 41 = 0) ∧
  (∀ (w : CommandWord) (pos : BitVec 6), decode w = .ok (.read pos) ↔
    w.toNat % 2 ^ 2 = 3 ∧ pos.toNat = w.toNat / 2 ^ 2 % 2 ^ 6 ∧ w.toNat / 2 ^ 8 = 0) ∧
  (∀ w : CommandWord, decode w = .ok .nop ↔ w.toNat = 0) ∧
  (∀ w : CommandWord, decode w = .ok .clear ↔ w.toNat = 2)

/-- The decoding vectors V-D1 to V-D11 (95_test_vectors.md 2.7), a few of each kind. -/
def Obligations.SpecWordsDecodeAsListed : Prop :=
  decode 0x000000000000#48 = .ok .nop ∧
  decode 0x000000000002#48 = .ok .clear ∧
  decode 0x0000000000EF#48 = .ok (.read 59) ∧
  decode 0x018419C41FA1#48 = .ok (.encode ⟨2024, 1, 7, 3, 4, 6⟩) ∧
  decode 0x000000000004#48 = .error (.mustBeZero .nop) ∧
  decode 0x000000000103#48 = .error (.mustBeZero .read) ∧
  decode 0x038419C41FA1#48 = .error (.mustBeZero .encode) ∧
  decode 0x800000000002#48 = .error (.mustBeZero .clear)

/-- R46: all four values of `cmd` are assigned; the ports present the command `cmd` selects with the ports it reads. -/
def Obligations.PortsPresentTheCommandOfCmd : Prop :=
  ∀ p : Ports, p.rst = false →
    eventOf (.ports p) = .ok (.command
      (if p.cmd.toNat = 0 then .nop
       else if p.cmd.toNat = 1 then .encode ⟨p.tsYear, p.tsMonth, p.tsDay, p.tsHour, p.tsMinute, p.tsDow⟩
       else if p.cmd.toNat = 2 then .clear
       else .read p.rdPos))

/-- R23: a port a command does not read has no effect on that command. -/
def Obligations.UnreadPortsHaveNoEffect : Prop :=
  ∀ (s : State) (rest : List StepInput) (p q : Ports), p.rst = q.rst → p.cmd = q.cmd →
    (p.cmd = 0b01#2 → p.tsYear = q.tsYear ∧ p.tsMonth = q.tsMonth ∧ p.tsDay = q.tsDay ∧ p.tsHour = q.tsHour ∧
      p.tsMinute = q.tsMinute ∧ p.tsDow = q.tsDow) →
    (p.cmd = 0b11#2 → p.rdPos = q.rdPos) →
    step { s with inputs := .ports p :: rest } = step { s with inputs := .ports q :: rest }

/-- R45: a command word and the port values it serialises present the same command. -/
def Obligations.WordStandsForItsPortValues : Prop :=
  ∀ (s : State) (rest : List StepInput) (i : Instr),
    step { s with inputs := .word (encode i) :: rest } = step { s with inputs := .ports (commandPorts i) :: rest }

/-! ## Steps -/

/-- A step is the command presented in it, from a word or from the ports; the word placed by `withFetchWord` runs next;
when nothing is presented the step is a NOP's (R12, R17, R69). -/
def Obligations.StepRunsThePresentedCommand : Prop :=
  (∀ (s : State) (w : CommandWord) (i : Instr) (rest : List StepInput), s.inputs = .word w :: rest →
    decode w = .ok i → step s = exec i { s with inputs := rest }) ∧
  (∀ (s : State) (p : Ports) (rest : List StepInput), s.inputs = .ports p :: rest → p.rst = false →
    step s = exec (portCommand p) { s with inputs := rest }) ∧
  (∀ (s : State) (w : Nat) (i : Instr), decodeTableWord 48 w = some i → step (s.withFetchWord 48 w) = exec i s) ∧
  (∀ s : State, s.inputs = [] → step s = exec .nop s)

/-- R50, R75: a word that spells no command is refused and never reaches the block. -/
def Obligations.StepRefusesWordsThatSpellNoCommand : Prop :=
  ∀ (s : State) (w : CommandWord) (rest : List StepInput), s.inputs = .word w :: rest → canonical w = false →
    step s = .refused (.spellsNoCommand (.mustBeZero (wordOpcode w)))

/-- R89, R85: in a step with `rst = 1` the reset values are applied, whatever command the ports hold, and the effect is
CLEAR's. -/
def Obligations.ResetIsAppliedAndTheCommandIgnored : Prop :=
  ∀ (s : State) (p : Ports) (rest : List StepInput), s.inputs = .ports p :: rest → p.rst = true →
    step s = .next { s with frame := none, valid := false, err := false, errcause := .none, rdSym := none,
                            draws := s.draws + 1, inputs := rest } ∧
    step s = exec .clear { s with inputs := rest }

/-- R29: the reset values; FRAME is held as absent, and FRAME_OUT and `rd_sym` are draws (assumption log 3). The default
of the parameter is R5's. -/
def Obligations.ResetStateHasTheResetValues : Prop :=
  State.reset.valid = false ∧ State.reset.err = false ∧ State.reset.errcause = .none ∧ State.reset.frame = none ∧
  State.reset.statusOut = 0b00000#5 ∧ State.reset.cfg.wdayPos = .p50 ∧
  (∃ n, State.reset.frameOut = Config.freeFrameOut n) ∧ ∃ n, State.reset.rdSymOut = Config.freeRdSym n

/-- R75: the block does not stop; every command completes in its step, in every state, and so does every step whose
input spells a command or a reset. -/
def Obligations.EveryCommandCompletesInItsStep : Prop :=
  (∀ (i : Instr) (s : State), ∃ t, exec i s = .next t) ∧
  (∀ (s : State) (input : StepInput) (rest : List StepInput) (e : Event), s.inputs = input :: rest →
    eventOf input = .ok e → ∃ t, step s = .next t)

/-! ## The commands -/

/-- R69: NOP writes no state of the block; FRAME, VALID, ERR and ERRCAUSE stay. The model's step counter advances and
`rd_sym` carries no READ's value (R26; assumption log 3). -/
def Obligations.NopWritesNoState : Prop :=
  ∀ s : State, exec .nop s = .next { s with rdSym := none, draws := s.draws + 1 }

/-- R68: CLEAR sets VALID, ERR and ERRCAUSE to 0 and leaves no meaningful FRAME, from every state. -/
def Obligations.ClearReturnsToTheResetState : Prop :=
  ∀ s : State, exec .clear s = .next { s with frame := none, valid := false, err := false, errcause := .none,
                                              rdSym := none, draws := s.draws + 1 }

/-- R63, R77: ENCODE, in every state. For a timestamp within the calendar bounds of R76 it leaves VALID = 1 and FRAME
the frame of that timestamp, and nothing else of the state changes: ERR and ERRCAUSE stay. Outside them it reports the
lowest code among the failing checks, in the order month, day, hour, minute, weekday: it sets ERR, keeps an earlier
cause, clears VALID and leaves FRAME unwritten. -/
def Obligations.EncodeLoadsTheFrameOrFaults : Prop :=
  ∀ (t : Timestamp) (s : State),
    let month := 1 ≤ t.month.toNat ∧ t.month.toNat ≤ 12
    let day := 1 ≤ t.day.toNat ∧ t.day.toNat ≤ 31
    let hour := t.hour.toNat ≤ 23
    let minute := t.minute.toNat ≤ 59
    let dow := t.dow.toNat ≤ 6
    (month ∧ day ∧ hour ∧ minute ∧ dow →
      exec (.encode t) s = .next { s with frame := some (encodeFrame s.cfg.wdayPos t), valid := true, rdSym := none,
                                          draws := s.draws + 1 }) ∧
    (∀ c : Cause,
      (¬month ∧ c = .monthRange) ∨ (month ∧ ¬day ∧ c = .dayRange) ∨ (month ∧ day ∧ ¬hour ∧ c = .hourRange) ∨
        (month ∧ day ∧ hour ∧ ¬minute ∧ c = .minuteRange) ∨
        (month ∧ day ∧ hour ∧ minute ∧ ¬dow ∧ c = .dowRange) →
      exec (.encode t) s = .next { s with valid := false, err := true, errcause := if s.err then s.errcause else c,
                                          rdSym := none, draws := s.draws + 1 })

/-- R67, R78: READ. At a position 0..59 with VALID = 1 it drives `rd_sym` with the code of the symbol there and changes
nothing else. At 60..63 it faults with POS_RANGE whatever VALID is, and at 0..59 with VALID = 0 with NO_FRAME; FRAME and
VALID are then unchanged and an earlier cause is kept. -/
def Obligations.ReadDrivesTheSymbolOrFaults : Prop :=
  ∀ (pos : BitVec 6) (s : State),
    (∀ (f : Frame) (h : pos.toNat < 60), s.valid = true → s.frame = some f →
      exec (.read pos) s = .next { s with rdSym := some (symbolCode f[pos.toNat]), draws := s.draws + 1 }) ∧
    (∀ c : Cause, (60 ≤ pos.toNat ∧ c = .posRange) ∨ (pos.toNat < 60 ∧ s.valid = false ∧ c = .noFrame) →
      exec (.read pos) s = .next { s with err := true, errcause := if s.err then s.errcause else c, rdSym := none,
                                          draws := s.draws + 1 })

/-- R28: no state crosses a command but FRAME, VALID, ERR and ERRCAUSE: two states that agree on them (and on the
parameter) agree on them, and on the value a READ returns, after any command. -/
def Obligations.OnlyTheFourElementsCrossACommand : Prop :=
  ∀ (i : Instr) (s r t u : State), s.cfg = r.cfg → s.frame = r.frame → s.valid = r.valid → s.err = r.err →
    s.errcause = r.errcause → exec i s = .next t → exec i r = .next u →
    t.frame = u.frame ∧ t.valid = u.valid ∧ t.err = u.err ∧ t.errcause = u.errcause ∧ t.rdSym = u.rdSym ∧
    t.cfg = s.cfg ∧ t.inputs = s.inputs

/-! ## Rules of the whole machine -/

/-- R20: VALID is set only by a successful ENCODE, and cleared by a faulting ENCODE, by CLEAR and by reset; while it is
1, FRAME holds the frame of the ENCODE that set it. -/
def Obligations.ValidChangesOnlyAsListed : Prop :=
  ∀ (e : Event) (s t : State), s.nextEvent = .ok e → step s = .next t →
    (t.valid = true ↔ (∃ ts, e = .command (.encode ts) ∧ inCalendar ts) ∨
      (s.valid = true ∧ (e = .command .nop ∨ ∃ pos, e = .command (.read pos)))) ∧
    (∀ ts, e = .command (.encode ts) → inCalendar ts → t.frame = some (encodeFrame s.cfg.wdayPos ts)) ∧
    ((e = .command .nop ∨ ∃ pos, e = .command (.read pos)) → t.frame = s.frame)

/-- R82: ERR and ERRCAUSE return to 0 by CLEAR and by reset, and only by them; a successful ENCODE does not clear
them. -/
def Obligations.ErrIsClearedOnlyByClearOrReset : Prop :=
  ∀ (e : Event) (s t : State), s.nextEvent = .ok e → step s = .next t →
    (e = .reset ∨ e = .command .clear → t.err = false ∧ t.errcause = .none) ∧
    (s.err = true → e ≠ .reset → e ≠ .command .clear → t.err = true ∧ t.errcause = s.errcause)

/-- R79: every fault sets ERR, and ERRCAUSE takes its code when ERR was 0; a command that reports no fault, other than
CLEAR, leaves both. -/
def Obligations.FaultsAreRecorded : Prop :=
  ∀ (i : Instr) (s t : State), s.nextEvent = .ok (.command i) → step s = .next t →
    (faultOf i s ≠ .none → t.err = true ∧ (s.err = false → t.errcause = faultOf i s) ∧
      (s.err = true → t.errcause = s.errcause)) ∧
    (faultOf i s = .none → i ≠ .clear → t.err = s.err ∧ t.errcause = s.errcause)

/-- R80: a faulting ENCODE clears VALID and does not write FRAME; a faulting READ leaves FRAME and VALID, and `rd_sym`
carries no value from it. -/
def Obligations.FaultsHaveOnlyTheListedEffects : Prop :=
  ∀ (i : Instr) (s t : State), s.nextEvent = .ok (.command i) → step s = .next t → faultOf i s ≠ .none →
    t.frame = s.frame ∧ t.rdSym = none ∧
    (∀ ts, i = .encode ts → t.valid = false) ∧ (∀ pos, i = .read pos → t.valid = s.valid) ∧
    ((∃ ts, i = .encode ts) ∨ ∃ pos, i = .read pos)

/-- R26: `rd_sym` carries a defined value exactly in the step of a READ that does not fault, and the value is then the
code of the symbol at its position; in every other step the port shows a draw (assumption log 3). -/
def Obligations.RdSymIsDefinedOnlyByASuccessfulRead : Prop :=
  ∀ (e : Event) (s t : State), s.nextEvent = .ok e → step s = .next t →
    ((∃ c, t.rdSym = some c) ↔ ∃ pos, e = .command (.read pos) ∧ faultOf (.read pos) s = .none) ∧
    (∀ (pos : BitVec 6) (c : SymbolCode), e = .command (.read pos) → t.rdSym = some c →
      ∃ (f : Frame) (h : pos.toNat < 60), s.frame = some f ∧ c = symbolCode f[pos.toNat] ∧ t.rdSymOut = c) ∧
    (t.rdSym = none → t.rdSymOut = Config.freeRdSym t.draws)

/-- R18: FRAME is written only by a successful ENCODE; otherwise it changes only by becoming absent, at CLEAR and
reset (R29). -/
def Obligations.FrameIsWrittenOnlyByEncode : Prop :=
  ∀ (e : Event) (s t : State), s.nextEvent = .ok e → step s = .next t → t.frame ≠ s.frame →
    (∃ ts, e = .command (.encode ts) ∧ inCalendar ts ∧ t.frame = some (encodeFrame s.cfg.wdayPos ts)) ∨
    ((e = .reset ∨ e = .command .clear) ∧ t.frame = none)

/-- The invariants R22, R39 and R73, marked derived in the spec: every step keeps the invariant. -/
def Obligations.StepKeepsTheInvariant : Prop := ∀ s t : State, s.Inv → step s = .next t → t.Inv

/-- The invariant holds at reset. -/
def Obligations.ResetMeetsTheInvariant : Prop := State.reset.Inv

/-- The inference R74 of the spec, marked derived there: from reset, with any sequence of inputs that spell commands and resets, VALID = 1 holds exactly when there is an
ENCODE that succeeded with no CLEAR, reset or other ENCODE since, and FRAME is then that ENCODE's frame. -/
def Obligations.ValidFrameIsTheLastEncodes : Prop :=
  ∀ (c : Config) (ins later : List StepInput) (evs : List Event), presents ins evs →
    ∃ t, core.run ins.length { State.reset with cfg := c, inputs := ins ++ later } = .next t ∧ t.inputs = later ∧
      (t.valid = true ↔ ∃ before ts after, evs = before ++ .command (.encode ts) :: after ∧ inCalendar ts ∧
        ∀ e ∈ after, eventEndsFrame e = false) ∧
      (∀ before ts after, evs = before ++ .command (.encode ts) :: after → inCalendar ts →
        (∀ e ∈ after, eventEndsFrame e = false) → t.frame = some (encodeFrame c.wdayPos ts))

/-- R22: over any steps without CLEAR or reset, from a state with ERR = 0, ERRCAUSE ends as the code of the first fault
reported, or 0 when there was none, and ERR tells whether there was one. -/
def Obligations.ErrcauseIsTheFirstFault : Prop :=
  ∀ (s : State) (ins later : List StepInput) (evs : List Event), presents ins evs →
    (∀ e ∈ evs, eventClears e = false) → s.err = false → s.errcause = .none → s.inputs = ins ++ later →
    ∃ t, core.run ins.length s = .next t ∧
      t.errcause = ((reportedFaults evs s).find? (· ≠ .none)).getD .none ∧
      t.err = (reportedFaults evs s).any (· ≠ .none)

/-- The inference R90 of the spec, marked derived there: after reset, and until one ENCODE succeeds, a READ within 0..59 reports NO_FRAME. -/
def Obligations.ReadReportsNoFrameUntilAnEncode : Prop :=
  ∀ (c : Config) (ins : List StepInput) (evs : List Event) (pos : BitVec 6), presents ins evs → pos.toNat < 60 →
    (∀ ts, .command (.encode ts) ∈ evs → ¬inCalendar ts) →
    ∃ t, core.run ins.length { State.reset with cfg := c, inputs := ins } = .next t ∧
      faultOf (.read pos) t = .noFrame

/-! ## The frame function -/

/-- The tables of R41 and R44, whose weights the spec marks derived: every position of a frame holds what the layout table says, for both values of WDAY_POS; the table has 60
positions. -/
def Obligations.FrameFollowsTheLayoutTable : Prop :=
  ∀ (wp : WdayPos) (t : Timestamp), inCalendar t →
    (encodeFrame wp t).toList = (layout wp).map (Slot.symbol t) ∧ (layout wp).length = 60

/-- R42: a frame has MARKER at exactly the seven marker positions, whatever the input. -/
def Obligations.MarkersAreInvariant : Prop :=
  ∀ (t : Timestamp) (s u : State), inCalendar t → exec (.encode t) s = .next u →
    ∃ f, u.frame = some f ∧
      ∀ p : Fin 60, f[p] = .marker ↔
        p.val = 0 ∨ p.val = 9 ∨ p.val = 19 ∨ p.val = 29 ∨ p.val = 39 ∨ p.val = 49 ∨ p.val = 59

/-- R43, and the ZERO positions of R44: the positions outside the fields and the markers are ZERO in every frame ENCODE leaves. -/
def Obligations.UnusedPositionsAreZero : Prop :=
  ∀ (t : Timestamp) (s u : State), inCalendar t → exec (.encode t) s = .next u →
    ∃ f, u.frame = some f ∧
      ∀ p : Fin 60,
        ((15 ≤ p.val ∧ p.val ≤ 18) ∨ (26 ≤ p.val ∧ p.val ≤ 28) ∨ (36 ≤ p.val ∧ p.val ≤ 38) ∨
          (53 ≤ p.val ∧ p.val ≤ 58) ∨ p.val = 48 ∨
          (s.cfg.wdayPos = .p50 ∧ p.val = 47) ∨ (s.cfg.wdayPos = .p45 ∧ 50 ≤ p.val ∧ p.val ≤ 52)) →
        f[p] = .zero

/-- For any number of digits, `bcd` has four bits per digit, the most significant digit and bit first. Where `1 ≤ d` and
`v < 10 ^ d` this is R53. Elsewhere, outside the helper's precondition, the value is what R54 marks derived and U6 says is
not to be relied on: that the helper is total there is the model's choice (DESIGN CHOICE, assumption log 6). -/
def Obligations.BcdGivesDigitsMostSignificantFirst : Prop :=
  ∀ v d : Nat, (bcd v d).length = 4 * d ∧
    ∀ k j, k < d → j < 4 → (bcd v d)[4 * (d - 1 - k) + (3 - j)]? = some ((v / 10 ^ k % 10).testBit j)

/-- What R56 to R59 infer, marked derived there: for a timestamp within the bounds, the bits a field's slice drops are all 0. -/
def Obligations.SlicesDropOnlyZeroBits : Prop :=
  ∀ t : Timestamp, inCalendar t →
    bcd t.month.toNat 2 = List.replicate 3 false ++ monthField t ∧
    bcd t.day.toNat 2 = List.replicate 2 false ++ dayField t ∧
    bcd t.hour.toNat 2 = List.replicate 2 false ++ hourField t ∧
    bcd t.minute.toNat 2 = List.replicate 1 false ++ minuteField t

/-- The conversion of R60, whose formula the spec marks derived, and the field of R61: Monday = 0 .. Sunday = 6 becomes Sunday = 0 .. Saturday = 6, and the field reads back to it least
significant bit first. -/
def Obligations.WeekdayIsConvertedToSundayZero : Prop :=
  ∀ t : Timestamp, t.dow.toNat ≤ 6 →
    weekday t = (if t.dow.toNat = 6 then 0 else t.dow.toNat + 1) ∧ binLsbFirst (weekdayField t) = weekday t ∧
    (weekdayField t).length = 3

/-- The inference R66 of the spec, marked derived there: with WDAY_POS = 50 every field reads back. -/
def Obligations.FieldsReadBackAtFifty : Prop :=
  ∀ t : Timestamp, inCalendar t →
    let f := encodeFrame .p50 t
    readBack f 1 8 = some (t.year.toNat % 100) ∧ readBack f 10 14 = some t.month.toNat ∧
    readBack f 20 25 = some t.day.toNat ∧ readBack f 30 35 = some t.hour.toNat ∧
    readBack f 40 46 = some t.minute.toNat ∧ readBackWeekday f 50 = some ((t.dow.toNat + 1) % 7)

/-- The inference R66 of the spec, marked derived there: with WDAY_POS = 45 the minute reads back exactly when the two overwritten bits agree with the weekday's, and
the other fields read back. -/
def Obligations.MinuteReadsBackAtFortyFiveExactlyWhen : Prop :=
  ∀ t : Timestamp, inCalendar t →
    let f := encodeFrame .p45 t
    let wd := (t.dow.toNat + 1) % 7
    let u := t.minute.toNat % 10
    readBack f 1 8 = some (t.year.toNat % 100) ∧ readBack f 10 14 = some t.month.toNat ∧
    readBack f 20 25 = some t.day.toNat ∧ readBack f 30 35 = some t.hour.toNat ∧
    readBackWeekday f 45 = some wd ∧
    (readBack f 40 46 = some t.minute.toNat ↔ u / 2 % 2 = wd % 2 ∧ u % 2 = wd / 2 % 2) ∧
    (readBack f 40 46).isSome = true

/-- The inference R64 of the spec, marked derived there: two ENCODEs whose inputs agree, the year mod 100, leave the same FRAME, whatever the states before them. -/
def Obligations.EncodeIsPure : Prop :=
  ∀ (t t' : Timestamp) (s s' u u' : State), inCalendar t → s.cfg.wdayPos = s'.cfg.wdayPos →
    t.year.toNat % 100 = t'.year.toNat % 100 → t.month = t'.month → t.day = t'.day → t.hour = t'.hour →
    t.minute = t'.minute → t.dow = t'.dow → exec (.encode t) s = .next u → exec (.encode t') s' = .next u' →
    u.frame = u'.frame ∧ u.frame.isSome = true

/-! ## Codes and ports -/

/-- R38: the symbol codes. -/
def Obligations.SymbolsHaveTheListedCodes : Prop :=
  symbolCode .zero = 0b00#2 ∧ symbolCode .one = 0b01#2 ∧ symbolCode .marker = 0b10#2 ∧
  (∀ b : Bool, (symbolCode (bitSymbol b)).getLsbD 0 = b) ∧
  ∀ y : Symbol, (symbolCode y).getLsbD 1 = true ↔ y = .marker

/-- R25, R40: while VALID = 1, FRAME_OUT[2p+1:2p] is the code of FRAME[p], for every position; while VALID = 0 the port
shows a draw (assumption log 3). -/
def Obligations.FrameOutPacksTheFrame : Prop :=
  ∀ s : State,
    (∀ f : Frame, s.valid = true → s.frame = some f →
      ∀ p : Fin 60, (s.frameOut >>> (2 * p.val)).setWidth 2 = symbolCode f[p]) ∧
    (s.valid = false → s.frameOut = Config.freeFrameOut s.draws)

/-- The inference R39 of the spec, marked derived there: a FRAME_OUT word is refused exactly when it holds the reserved code; any other word is one frame's packing. -/
def Obligations.UnpackingRefusesTheReservedCode : Prop :=
  (∀ f : Frame, unpackFrame (packFrame f) = some f) ∧
  (∀ (w : BitVec 120) (f : Frame), unpackFrame w = some f → packFrame f = w) ∧
  (∀ w : BitVec 120, unpackFrame w = none ↔ ∃ p : Fin 60, w.getLsbD (2 * p.val) = true ∧ w.getLsbD (2 * p.val + 1) = true)

/-- The inference R39 of the spec, marked derived there: `11` is never on FRAME_OUT while VALID = 1, nor on `rd_sym` from a READ that does not fault. -/
def Obligations.OutputsNeverShowTheReservedCode : Prop :=
  ∀ s : State, s.Inv →
    (s.valid = true → ∀ p : Fin 60, frameOutCode s.frameOut p ≠ 0b11#2) ∧
    (∀ (pos : BitVec 6) (t : State), faultOf (.read pos) s = .none → exec (.read pos) s = .next t →
      t.rdSymOut ≠ 0b11#2)

/-- R27: STATUS[0] is VALID, STATUS[1] is ERR and STATUS[4:2] is ERRCAUSE's code, 1 to 7 in the order of R76's table and
0 for NONE. -/
def Obligations.StatusPacksTheFlags : Prop :=
  (∀ s : State, s.statusOut.getLsbD 0 = s.valid ∧ s.statusOut.getLsbD 1 = s.err ∧
    s.statusOut.toNat / 4 = (causeCode s.errcause).toNat ∧ codeCause (causeCode s.errcause) = s.errcause) ∧
  [Cause.none, .monthRange, .dayRange, .hourRange, .minuteRange, .dowRange, .posRange, .noFrame].map
    (fun c => (causeCode c).toNat) = [0, 1, 2, 3, 4, 5, 6, 7]

/-! ## Sequences of commands -/

/-- R94: STATUS and FRAME_OUT show the new state from the end of the ENCODE's step, and a READ in the step right after it
returns the new frame's symbol. -/
def Obligations.ReadRightAfterEncodeSeesTheNewFrame : Prop :=
  ∀ (s : State) (t : Timestamp) (pos : BitVec 6) (rest : List StepInput) (h : pos.toNat < 60), inCalendar t →
    s.inputs = .word (encode (.encode t)) :: .word (encode (.read pos)) :: rest →
    (∃ u, core.run 1 s = .next u ∧ u.statusOut.getLsbD 0 = true ∧
      u.frameOut = packFrame (encodeFrame s.cfg.wdayPos t)) ∧
    ∃ u, core.run 2 s = .next u ∧ u.rdSym = some (symbolCode (encodeFrame s.cfg.wdayPos t)[pos.toNat]) ∧
      u.inputs = rest

/-- A corner case of R67 the spec marks derived: READs and NOPs, any number of them in any order, change neither FRAME nor VALID. -/
def Obligations.ReadsNeverChangeFrameOrValid : Prop :=
  ∀ (s : State) (ins later : List StepInput) (evs : List Event), presents ins evs →
    (∀ e ∈ evs, e = .command .nop ∨ ∃ pos, e = .command (.read pos)) → s.inputs = ins ++ later →
    ∃ t, core.run ins.length s = .next t ∧ t.frame = s.frame ∧ t.valid = s.valid ∧ t.cfg = s.cfg ∧ t.inputs = later

/-- R51, R67: READALL, the 60 READs in order, returns the codes of FRAME in frame order, each at its READ. -/
def Obligations.ReadAllReturnsTheFrame : Prop :=
  ∀ (s : State) (f : Frame) (later : List StepInput), s.valid = true → s.frame = some f →
    s.inputs = lineInputs .readAll ++ later →
    (observations 60 s).map Observation.rdSym = f.toList.map fun y => some (symbolCode y)

/-- The inference R95 of the spec, marked derived there: VALID = 1 with ERR = 1 is reachable: a faulting ENCODE, then one that succeeds (V-K1). -/
def Obligations.ValidWithErrIsReachable : Prop :=
  ∃ (ins : List StepInput) (t : State),
    core.run ins.length { State.reset with inputs := ins } = .next t ∧ t.valid = true ∧ t.err = true ∧
      t.errcause = .minuteRange

/-! ## The assembler's notation -/

/-- R51: a line assembles exactly when each operand fits its port. -/
def Obligations.OversizeOperandsDoNotAssemble : Prop :=
  (∀ y mo d h mi dow : Nat,
    ((assembleLine (.encode y mo d h mi dow)).toOption.isSome = true ↔
      y ≤ 65535 ∧ mo ≤ 15 ∧ d ≤ 31 ∧ h ≤ 31 ∧ mi ≤ 63 ∧ dow ≤ 7)) ∧
  (∀ pos : Nat, ((assembleLine (.read pos)).toOption.isSome = true ↔ pos ≤ 63)) ∧
  (∀ l : AsmLine, l = .clear ∨ l = .nop ∨ l = .reset ∨ l = .readAll → assembleLine l = .ok (lineInputs l))

/-- R51: a line that assembles presents the command it names, with its operands unchanged; RESET presents a reset and
READALL the 60 READs in order. -/
def Obligations.AssembledLinesPresentTheirCommands : Prop :=
  (∀ (y mo d h mi dow : Nat) (ins : List StepInput), assembleLine (.encode y mo d h mi dow) = .ok ins →
    ∃ t : Timestamp, presents ins [.command (.encode t)] ∧ t.year.toNat = y ∧ t.month.toNat = mo ∧ t.day.toNat = d ∧
      t.hour.toNat = h ∧ t.minute.toNat = mi ∧ t.dow.toNat = dow) ∧
  (∀ (pos : Nat) (ins : List StepInput), assembleLine (.read pos) = .ok ins →
    ∃ p : BitVec 6, presents ins [.command (.read p)] ∧ p.toNat = pos) ∧
  presents (lineInputs .clear) [.command .clear] ∧
  presents (lineInputs .nop) [.command .nop] ∧
  presents (lineInputs .reset) [.reset] ∧
  presents (lineInputs .readAll) ((List.range 60).map fun p => .command (.read (BitVec.ofNat 6 p)))
end

