-- ==== Sys2Proof/Laws/Frames.lean ====
section
/-! SUPPORT. The frame function: the bits of each field, and the whole frame as its blocks in order
(spec/40_frame_encode.md R55 to R62; spec/30_encoding.md R38, R41). -/

namespace Sys2Proof.Machine

/-! ## Symbols -/

@[simp] theorem bitSymbol_ne_marker (b : Bool) : bitSymbol b ≠ .marker := by cases b <;> decide

@[simp] theorem symbolBit_bitSymbol (b : Bool) : symbolBit (bitSymbol b) = some b := by cases b <;> rfl

@[simp] theorem symbolCode_ne_reserved (y : Symbol) : symbolCode y ≠ 0b11#2 := by cases y <;> decide

@[simp] theorem codeSymbol_symbolCode (y : Symbol) : codeSymbol (symbolCode y) = some y := by cases y <;> rfl

/-- A code spells a symbol unless it is the reserved one (R39). -/
theorem codeSymbol_eq_some {c : SymbolCode} {y : Symbol} (h : codeSymbol c = some y) : symbolCode y = c := by
  revert c y; decide

theorem codeSymbol_eq_none {c : SymbolCode} : codeSymbol c = none ↔ c = 0b11#2 := by
  revert c; decide

theorem slot_symbol_eq_marker (t : Timestamp) (sl : Slot) : sl.symbol t = .marker ↔ sl = .marker := by
  cases sl <;> simp [Slot.symbol]

/-! ## The fields' bits -/

theorem yearField_bits (t : Timestamp) : yearField t =
    nibble (year2 t / 10 % 10) ++ nibble (year2 t % 10) := by simp [yearField, bcd]

theorem monthField_bits (t : Timestamp) : monthField t =
    (t.month.toNat / 10 % 10).testBit 0 :: nibble (t.month.toNat % 10) := by
  simp [monthField, bcd, lastK, nibble]

theorem dayField_bits (t : Timestamp) : dayField t =
    (t.day.toNat / 10 % 10).testBit 1 :: (t.day.toNat / 10 % 10).testBit 0 :: nibble (t.day.toNat % 10) := by
  simp [dayField, bcd, lastK, nibble]

theorem hourField_bits (t : Timestamp) : hourField t =
    (t.hour.toNat / 10 % 10).testBit 1 :: (t.hour.toNat / 10 % 10).testBit 0 :: nibble (t.hour.toNat % 10) := by
  simp [hourField, bcd, lastK, nibble]

theorem minuteField_bits (t : Timestamp) : minuteField t =
    (t.minute.toNat / 10 % 10).testBit 2 :: (t.minute.toNat / 10 % 10).testBit 1 ::
      (t.minute.toNat / 10 % 10).testBit 0 :: nibble (t.minute.toNat % 10) := by
  simp [minuteField, bcd, lastK, nibble]

theorem weekday_lt (t : Timestamp) : weekday t < 7 := Nat.mod_lt _ (by decide)

theorem bin_nibble {g : Nat} (h : g < 16) : bin (nibble g) = g := by
  revert g; decide

/-! ## The frame as blocks -/

/-- `place` on the list of a frame's symbols. -/
def placeList (b : Nat) : Bits → List Symbol → List Symbol
  | [], l => l
  | x :: rest, l => placeList (b + 1) rest (l.set b (bitSymbol x))

theorem place_toList (l : Bits) : ∀ (b : Nat) (f : Frame), (place b l f).toList = placeList b l f.toList := by
  induction l with
  | nil => intro b f; rfl
  | cons x rest ih => intro b f; rw [place, ih, placeList, Vector.toList_setIfInBounds]

/-- A run of ZERO symbols. -/
def zeros (n : Nat) : List Symbol := List.replicate n Symbol.zero

/-- The frame before any field is placed, as blocks (R62, steps 1 and 2). -/
def skeletonList : List Symbol :=
  [[.marker], zeros 8, [.marker], zeros 9, [.marker], zeros 9, [.marker], zeros 9, [.marker], zeros 9, [.marker],
    zeros 9, [.marker]].flatten

theorem frameSkeleton_toList : frameSkeleton.toList = skeletonList := by decide

/-- The frame that carries the given fields' bits, as blocks. -/
def frameOfBits (wp : WdayPos) (year month day hour minute weekday : Bits) : List Symbol :=
  ([[.marker], year.map bitSymbol, [.marker], month.map bitSymbol, zeros 4, [.marker], day.map bitSymbol, zeros 3,
    [.marker], hour.map bitSymbol, zeros 3, [.marker]] ++
   match wp with
   | .p50 => [minute.map bitSymbol, zeros 2, [.marker], weekday.map bitSymbol, zeros 6, [.marker]]
   | .p45 => [(minute.take 5).map bitSymbol, weekday.map bitSymbol, zeros 1, [.marker], zeros 9, [.marker]]).flatten

theorem placeList_fields (wp : WdayPos) (y7 y6 y5 y4 y3 y2 y1 y0 m4 m3 m2 m1 m0 d5 d4 d3 d2 d1 d0 h5 h4 h3 h2 h1 h0
    n6 n5 n4 n3 n2 n1 n0 w0 w1 w2 : Bool) :
    placeList wp.toNat [w0, w1, w2] (placeList 40 [n6, n5, n4, n3, n2, n1, n0]
      (placeList 30 [h5, h4, h3, h2, h1, h0] (placeList 20 [d5, d4, d3, d2, d1, d0]
        (placeList 10 [m4, m3, m2, m1, m0] (placeList 1 [y7, y6, y5, y4, y3, y2, y1, y0] skeletonList))))) =
    frameOfBits wp [y7, y6, y5, y4, y3, y2, y1, y0] [m4, m3, m2, m1, m0] [d5, d4, d3, d2, d1, d0]
      [h5, h4, h3, h2, h1, h0] [n6, n5, n4, n3, n2, n1, n0] [w0, w1, w2] := by
  cases wp <;> simp [placeList, skeletonList, WdayPos.toNat, frameOfBits, zeros, List.replicate]

/-- The frame function, said once: its fields' blocks between the markers and the ZERO runs. -/
theorem encodeFrame_toList (wp : WdayPos) (t : Timestamp) : (encodeFrame wp t).toList =
    frameOfBits wp (yearField t) (monthField t) (dayField t) (hourField t) (minuteField t) (weekdayField t) := by
  simp only [encodeFrame, place_toList, frameSkeleton_toList, yearField_bits, monthField_bits, dayField_bits,
    hourField_bits, minuteField_bits, weekdayField, nibble, List.cons_append, List.nil_append, placeList_fields]

/-- A position of a frame, through its list. -/
theorem getElem?_eq_toList (f : Frame) (p : Nat) : f[p]? = f.toList[p]? := by simp

end Sys2Proof.Machine
end

