-- ==== Sys2Proof/Laws/Codes.lean ====
section
/-! SUPPORT. The packing of symbols into FRAME_OUT as a number in base 4 (spec/30_encoding.md R38 to R40). -/

namespace Sys2Proof.Machine

/-- The p-th base-4 digit of a packing is the p-th symbol's code. -/
theorem packSymbols_digit (l : List Symbol) : ∀ (p : Nat) (h : p < l.length),
    packSymbols l / 2 ^ (2 * p) % 4 = (symbolCode l[p]).toNat := by
  induction l with
  | nil => intro p h; simp at h
  | cons y l ih =>
    intro p h
    have hy : (symbolCode y).toNat < 4 := (symbolCode y).isLt
    cases p with
    | zero => simp [packSymbols]; omega
    | succ p =>
      have hp : p < l.length := by simpa using h
      have e : 2 ^ (2 * (p + 1)) = 4 * 2 ^ (2 * p) := by rw [Nat.mul_succ, pow_add]; omega
      rw [e, ← Nat.div_div_eq_div_mul, packSymbols,
        show ((symbolCode y).toNat + 4 * packSymbols l) / 4 = packSymbols l by omega]
      simpa using ih p hp

theorem packSymbols_lt (l : List Symbol) : packSymbols l < 2 ^ (2 * l.length) := by
  induction l with
  | nil => simp [packSymbols]
  | cons y l ih =>
    have hy : (symbolCode y).toNat < 4 := (symbolCode y).isLt
    have e : 2 ^ (2 * (y :: l).length) = 4 * 2 ^ (2 * l.length) := by
      rw [List.length_cons, Nat.mul_succ, pow_add]; omega
    rw [packSymbols, e]; omega

/-- No bit of the packing is dropped by FRAME_OUT's 120 bits. -/
theorem packFrame_toNat (f : Frame) : (packFrame f).toNat = packSymbols f.toList := by
  have h := packSymbols_lt f.toList
  rw [Vector.length_toList] at h
  exact Nat.mod_eq_of_lt h

/-- Two FRAME_OUT words with the same 60 codes are equal: there are no other bits (R40). -/
theorem frameOut_ext {w v : BitVec 120} (h : ∀ p : Fin 60, frameOutCode w p = frameOutCode v p) : w = v := by
  ext i hi
  have hb := congrArg (·.getLsbD (i % 2)) (h ⟨i / 2, by omega⟩)
  have hlt : i % 2 < 2 := by omega
  have e : 2 * (i / 2) + i % 2 = i := by omega
  simpa [frameOutCode, BitVec.getLsbD_extractLsb', hlt, e, BitVec.getLsbD_eq_getElem, hi] using hb

end Sys2Proof.Machine
end

