-- ==== Sys2Proof/Laws/Decode.lean ====
section
/-! SUPPORT. Command words as numbers: what a field of a word is, what an encoded command is, and what the decoder's
tests say (spec/30_encoding.md R45 to R50). -/

namespace Sys2Proof

theorem append_toNat {n m : Nat} (x : BitVec n) (y : BitVec m) : (x ++ y).toNat = x.toNat * 2 ^ m + y.toNat := by
  rw [BitVec.toNat_append, Nat.shiftLeft_eq, Nat.mul_comm, ← Nat.two_pow_add_eq_or_of_lt y.isLt]

theorem field_toNat {n : Nat} (w : BitVec n) (a b : Nat) :
    (w.extractLsb' a b).toNat = w.toNat / 2 ^ a % 2 ^ b := by
  simp [BitVec.extractLsb'_toNat, Nat.shiftRight_eq_div_pow]

/-- The NOP word (R49). -/
theorem encode_nop_toNat : (encode .nop).toNat = 0 := by decide

/-- The CLEAR word (R49). -/
theorem encode_clear_toNat : (encode .clear).toNat = 2 := by decide

/-- Format E as a number (R47). -/
theorem encode_encode_toNat (t : Timestamp) : (encode (.encode t)).toNat =
    1 + 2 ^ 2 * t.year.toNat + 2 ^ 18 * t.month.toNat + 2 ^ 22 * t.day.toNat + 2 ^ 27 * t.hour.toNat +
      2 ^ 32 * t.minute.toNat + 2 ^ 38 * t.dow.toNat := by
  have h : (encode (.encode t)).toNat =
      (0#7 ++ t.dow ++ t.minute ++ t.hour ++ t.day ++ t.month ++ t.year ++ Opcode.encode.cmd).toNat := rfl
  simp only [h, append_toNat, Opcode.cmd, BitVec.toNat_ofNat]
  omega

/-- Format R as a number (R48). -/
theorem encode_read_toNat (pos : BitVec 6) : (encode (.read pos)).toNat = 3 + 2 ^ 2 * pos.toNat := by
  have h : (encode (.read pos)).toNat = (0#40 ++ pos ++ Opcode.read.cmd).toNat := rfl
  simp only [h, append_toNat, Opcode.cmd, BitVec.toNat_ofNat]
  omega

/-- The opcode of a word by its value mod 4 (R45, R46). -/
theorem wordOpcode_eq (w : CommandWord) : wordOpcode w =
    if w.toNat % 4 = 0 then .nop else if w.toNat % 4 = 1 then .encode
    else if w.toNat % 4 = 2 then .clear else .read := by
  simp [wordOpcode, Opcode.ofCmd, BitVec.toNat_eq]

/-- The must-be-0 bits as a bound on the word (R47 to R49). -/
theorem mustBeZeroHolds_eq (op : Opcode) (w : CommandWord) : mustBeZeroHolds op w =
    match op with
    | .encode => decide (w.toNat < 2 ^ 41)
    | .read => decide (w.toNat < 2 ^ 8)
    | .nop => decide (w.toNat < 2 ^ 2)
    | .clear => decide (w.toNat < 2 ^ 2) := by
  have := w.isLt
  cases op <;> rw [Bool.eq_iff_iff] <;>
    simp only [mustBeZeroHolds, beq_iff_eq, BitVec.toNat_eq, field_toNat, decide_eq_true_eq, BitVec.toNat_ofNat] <;>
    omega

/-- A canonical word decodes to the fields of its command's format. -/
theorem decode_of_canonical {w : CommandWord} (h : canonical w = true) :
    decode w = .ok (wordFields (wordOpcode w) w) := by simp [decode, h]

/-- Any other word is refused under its command's name. -/
theorem decode_of_not_canonical {w : CommandWord} (h : canonical w = false) :
    decode w = .error (.mustBeZero (wordOpcode w)) := by simp [decode, h]

/-- The fields of an encoded ENCODE are its operands. -/
theorem wordTimestamp_encode (t : Timestamp) : wordTimestamp (encode (.encode t)) = t := by
  have h := encode_encode_toNat t
  obtain ⟨y, mo, d, ho, mi, dw⟩ := t
  have := y.isLt; have := mo.isLt; have := d.isLt; have := ho.isLt; have := mi.isLt; have := dw.isLt
  simp only [wordTimestamp, Timestamp.mk.injEq, BitVec.toNat_eq, field_toNat, h]
  refine ⟨?_, ?_, ?_, ?_, ?_, ?_⟩ <;> omega

/-- The position field of an encoded READ is its operand. -/
theorem wordPosition_encode (pos : BitVec 6) : (encode (.read pos)).extractLsb' 2 6 = pos := by
  have := pos.isLt
  simp only [BitVec.toNat_eq, field_toNat, encode_read_toNat]; omega

end Sys2Proof
end

