-- ==== Sys2Proof/Laws/PerInstr.lean ====
section
/-! SUPPORT. Statements made for every instruction, one lemma per constructor. -/

namespace Sys2Proof.Laws.Canonical

/-- The family: a command's word is canonical (spec/30_encoding.md R50). -/
def Statement (i : Instr) : Prop := canonical (Sys2Proof.encode i) = true

theorem nop : Statement .nop := by unfold Statement; decide

theorem encode (t : Timestamp) : Statement (.encode t) := by
  have h := encode_encode_toNat t
  have hop : wordOpcode (Sys2Proof.encode (.encode t)) = .encode := by
    rw [wordOpcode_eq, h]; split_ifs <;> first | rfl | omega
  have := t.year.isLt; have := t.month.isLt; have := t.day.isLt; have := t.hour.isLt
  have := t.minute.isLt; have := t.dow.isLt
  simp only [Statement, canonical, hop, mustBeZeroHolds_eq, decide_eq_true_eq]; omega

theorem clear : Statement .clear := by unfold Statement; decide

theorem read (pos : BitVec 6) : Statement (.read pos) := by
  have h := encode_read_toNat pos
  have hop : wordOpcode (Sys2Proof.encode (.read pos)) = .read := by
    rw [wordOpcode_eq, h]; split_ifs <;> first | rfl | omega
  have := pos.isLt
  simp only [Statement, canonical, hop, mustBeZeroHolds_eq, decide_eq_true_eq]; omega

end Sys2Proof.Laws.Canonical
end

