-- ==== Sys2Proof/Laws/State.lean ====
section
/-! SUPPORT. One lemma per field and update: what each shared operation leaves in each field of the state. -/

namespace Sys2Proof.Machine

@[simp] theorem State.newStep_cfg (s : State) : s.newStep.cfg = s.cfg := rfl
@[simp] theorem State.newStep_frame (s : State) : s.newStep.frame = s.frame := rfl
@[simp] theorem State.newStep_valid (s : State) : s.newStep.valid = s.valid := rfl
@[simp] theorem State.newStep_err (s : State) : s.newStep.err = s.err := rfl
@[simp] theorem State.newStep_errcause (s : State) : s.newStep.errcause = s.errcause := rfl
@[simp] theorem State.newStep_rdSym (s : State) : s.newStep.rdSym = none := rfl
@[simp] theorem State.newStep_draws (s : State) : s.newStep.draws = s.draws + 1 := rfl
@[simp] theorem State.newStep_inputs (s : State) : s.newStep.inputs = s.inputs := rfl

@[simp] theorem State.recordFault_cfg (s : State) (c : Cause) : (s.recordFault c).cfg = s.cfg := rfl
@[simp] theorem State.recordFault_frame (s : State) (c : Cause) : (s.recordFault c).frame = s.frame := rfl
@[simp] theorem State.recordFault_valid (s : State) (c : Cause) : (s.recordFault c).valid = s.valid := rfl
@[simp] theorem State.recordFault_err (s : State) (c : Cause) : (s.recordFault c).err = true := rfl
@[simp] theorem State.recordFault_errcause (s : State) (c : Cause) : (s.recordFault c).errcause = causeAfterFault s.err s.errcause c := rfl
@[simp] theorem State.recordFault_rdSym (s : State) (c : Cause) : (s.recordFault c).rdSym = s.rdSym := rfl
@[simp] theorem State.recordFault_draws (s : State) (c : Cause) : (s.recordFault c).draws = s.draws := rfl
@[simp] theorem State.recordFault_inputs (s : State) (c : Cause) : (s.recordFault c).inputs = s.inputs := rfl

@[simp] theorem State.returnToReset_cfg (s : State) : s.returnToReset.cfg = s.cfg := rfl
@[simp] theorem State.returnToReset_frame (s : State) : s.returnToReset.frame = none := rfl
@[simp] theorem State.returnToReset_valid (s : State) : s.returnToReset.valid = false := rfl
@[simp] theorem State.returnToReset_err (s : State) : s.returnToReset.err = false := rfl
@[simp] theorem State.returnToReset_errcause (s : State) : s.returnToReset.errcause = .none := rfl
@[simp] theorem State.returnToReset_rdSym (s : State) : s.returnToReset.rdSym = none := rfl
@[simp] theorem State.returnToReset_draws (s : State) : s.returnToReset.draws = s.draws + 1 := rfl
@[simp] theorem State.returnToReset_inputs (s : State) : s.returnToReset.inputs = s.inputs := rfl

@[simp] theorem State.loadFrame_cfg (s : State) (f : Frame) : (s.loadFrame f).cfg = s.cfg := rfl
@[simp] theorem State.loadFrame_frame (s : State) (f : Frame) : (s.loadFrame f).frame = some f := rfl
@[simp] theorem State.loadFrame_valid (s : State) (f : Frame) : (s.loadFrame f).valid = true := rfl
@[simp] theorem State.loadFrame_err (s : State) (f : Frame) : (s.loadFrame f).err = s.err := rfl
@[simp] theorem State.loadFrame_errcause (s : State) (f : Frame) : (s.loadFrame f).errcause = s.errcause := rfl
@[simp] theorem State.loadFrame_rdSym (s : State) (f : Frame) : (s.loadFrame f).rdSym = none := rfl
@[simp] theorem State.loadFrame_draws (s : State) (f : Frame) : (s.loadFrame f).draws = s.draws + 1 := rfl
@[simp] theorem State.loadFrame_inputs (s : State) (f : Frame) : (s.loadFrame f).inputs = s.inputs := rfl

@[simp] theorem State.driveRdSym_cfg (s : State) (y : Symbol) : (s.driveRdSym y).cfg = s.cfg := rfl
@[simp] theorem State.driveRdSym_frame (s : State) (y : Symbol) : (s.driveRdSym y).frame = s.frame := rfl
@[simp] theorem State.driveRdSym_valid (s : State) (y : Symbol) : (s.driveRdSym y).valid = s.valid := rfl
@[simp] theorem State.driveRdSym_err (s : State) (y : Symbol) : (s.driveRdSym y).err = s.err := rfl
@[simp] theorem State.driveRdSym_errcause (s : State) (y : Symbol) : (s.driveRdSym y).errcause = s.errcause := rfl
@[simp] theorem State.driveRdSym_rdSym (s : State) (y : Symbol) : (s.driveRdSym y).rdSym = some (symbolCode y) := rfl
@[simp] theorem State.driveRdSym_draws (s : State) (y : Symbol) : (s.driveRdSym y).draws = s.draws + 1 := rfl
@[simp] theorem State.driveRdSym_inputs (s : State) (y : Symbol) : (s.driveRdSym y).inputs = s.inputs := rfl

/-! Taking a fault: VALID is the one field that depends on the command. -/

@[simp] theorem State.raiseFault_cfg (s : State) (op : Opcode) (c : Cause) : (s.raiseFault op c).cfg = s.cfg := by
  cases op <;> rfl
@[simp] theorem State.raiseFault_frame (s : State) (op : Opcode) (c : Cause) : (s.raiseFault op c).frame = s.frame := by
  cases op <;> rfl
@[simp] theorem State.raiseFault_encode_valid (s : State) (c : Cause) : (s.raiseFault .encode c).valid = false := rfl
@[simp] theorem State.raiseFault_read_valid (s : State) (c : Cause) : (s.raiseFault .read c).valid = s.valid := rfl
@[simp] theorem State.raiseFault_err (s : State) (op : Opcode) (c : Cause) : (s.raiseFault op c).err = true := by
  cases op <;> rfl
@[simp] theorem State.raiseFault_errcause (s : State) (op : Opcode) (c : Cause) : (s.raiseFault op c).errcause = causeAfterFault s.err s.errcause c := by
  cases op <;> rfl
@[simp] theorem State.raiseFault_rdSym (s : State) (op : Opcode) (c : Cause) : (s.raiseFault op c).rdSym = none := by
  cases op <;> rfl
@[simp] theorem State.raiseFault_draws (s : State) (op : Opcode) (c : Cause) : (s.raiseFault op c).draws = s.draws + 1 := by
  cases op <;> rfl
@[simp] theorem State.raiseFault_inputs (s : State) (op : Opcode) (c : Cause) : (s.raiseFault op c).inputs = s.inputs := by
  cases op <;> rfl

@[simp] theorem causeAfterFault_clear (old c : Cause) : causeAfterFault false old c = c := rfl
@[simp] theorem causeAfterFault_set (old c : Cause) : causeAfterFault true old c = old := rfl

end Sys2Proof.Machine
end

