-- ==== Sys2Proof/Laws/Step.lean ====
section
/-! SUPPORT. What a step can do, said once: every event leads to the one state `afterEvent` gives, and a run of inputs
that spell events is the fold of it. -/

namespace Sys2Proof.Machine

/-! ## Operands -/

/-- ENCODE's checks pass exactly within the calendar bounds (R76, R77). -/
theorem encodeCheck_none (t : Timestamp) : encodeCheck t = .none ↔ inCalendar t := by
  unfold encodeCheck inCalendar
  split_ifs <;> simp <;> omega

/-- What READ's operand access can answer (R31, R78). -/
theorem readOperand_cases (pos : BitVec 6) (held : Option Frame) :
    (60 ≤ pos.toNat ∧ readOperand pos held = .error .posRange) ∨
    (pos.toNat < 60 ∧ held = none ∧ readOperand pos held = .error .noFrame) ∨
    (∃ (h : pos.toNat < 60) (f : Frame), held = some f ∧ readOperand pos held = .ok f[pos.toNat]) := by
  unfold readOperand
  split_ifs with h
  · right
    cases held with
    | none => exact .inl ⟨h, rfl, rfl⟩
    | some f => exact .inr ⟨h, f, rfl, rfl⟩
  · exact .inl ⟨by omega, rfl⟩

theorem frameHeld_of_valid {s : State} {f : Frame} (hv : s.valid = true) (hf : s.frame = some f) :
    s.frameHeld = some f := by simp [State.frameHeld, hv, hf]

/-! ## One event -/

/-- The state after an event. -/
def afterEvent (e : Event) (s : State) : State :=
  match e with
  | .reset => s.returnToReset
  | .command .nop => s.newStep
  | .command .clear => s.returnToReset
  | .command (.encode t) =>
    if encodeCheck t = .none then s.loadFrame (encodeFrame s.cfg.wdayPos t) else s.raiseFault .encode (encodeCheck t)
  | .command (.read pos) =>
    match readOperand pos s.frameHeld with
    | .ok y => s.driveRdSym y
    | .error c => s.raiseFault .read c

theorem doEvent_eq (e : Event) (s : State) : doEvent e s = .next (afterEvent e s) := by
  cases e with
  | reset => rfl
  | command i =>
    cases i with
    | nop => rfl
    | clear => rfl
    | encode t => simp only [doEvent, exec, execEncode, afterEvent]; split_ifs <;> rfl
    | read pos =>
      simp only [doEvent, exec, execRead, afterEvent]
      cases readOperand pos s.frameHeld <;> rfl

theorem exec_eq (i : Instr) (s : State) : exec i s = .next (afterEvent (.command i) s) := doEvent_eq (.command i) s

/-- The fields no event touches. -/
theorem afterEvent_cfg_inputs (e : Event) (s : State) :
    (afterEvent e s).cfg = s.cfg ∧ (afterEvent e s).inputs = s.inputs := by
  rcases e with _ | ⟨_ | t | _ | p⟩ <;> simp only [afterEvent]
  · exact ⟨rfl, rfl⟩
  · exact ⟨rfl, rfl⟩
  · split_ifs <;> exact ⟨rfl, rfl⟩
  · exact ⟨rfl, rfl⟩
  · split <;> exact ⟨rfl, rfl⟩

@[simp] theorem afterEvent_cfg (e : Event) (s : State) : (afterEvent e s).cfg = s.cfg := (afterEvent_cfg_inputs e s).1

@[simp] theorem afterEvent_inputs (e : Event) (s : State) : (afterEvent e s).inputs = s.inputs :=
  (afterEvent_cfg_inputs e s).2

/-- What is still to be presented does not matter to an event (R34). -/
theorem afterEvent_withInputs (e : Event) (s : State) (l : List StepInput) :
    afterEvent e { s with inputs := l } = { afterEvent e s with inputs := l } := by
  rcases e with _ | ⟨_ | t | _ | p⟩
  · rfl
  · rfl
  · simp only [afterEvent]; split_ifs <;> rfl
  · rfl
  · have h : ({ s with inputs := l } : State).frameHeld = s.frameHeld := rfl
    simp only [afterEvent, h]; split <;> rfl

/-! ## One step -/

/-- The state with the next input taken. -/
def State.restInputs (s : State) : State := { s with inputs := s.inputs.tail }

theorem step_eq {s : State} {e : Event} (h : s.nextEvent = .ok e) : step s = .next (afterEvent e s.restInputs) := by
  unfold State.nextEvent at h
  unfold step presentNext State.restInputs
  cases hi : s.inputs with
  | nil =>
    simp only [hi] at h
    cases h
    rw [exec_eq]
    cases s; simp_all
  | cons a l =>
    simp only [hi] at h
    simp only [present, h, doEvent_eq, List.tail_cons]

theorem step_refused {s : State} {r : DecodeReject} (h : s.nextEvent = .error r) :
    step s = .refused (.spellsNoCommand r) := by
  unfold State.nextEvent at h
  unfold step presentNext
  cases hi : s.inputs with
  | nil => simp only [hi] at h; cases h
  | cons a l =>
    simp only [hi] at h
    simp only [present, h]

/-- A step to a next state is some event's. -/
theorem step_next {s t : State} (h : step s = .next t) :
    ∃ e, s.nextEvent = .ok e ∧ t = afterEvent e s.restInputs := by
  cases he : s.nextEvent with
  | ok e => rw [step_eq he] at h; cases h; exact ⟨e, rfl, rfl⟩
  | error r => rw [step_refused he] at h; cases h

/-! ## Runs -/

/-- The state after a sequence of events. -/
def afterEvents (evs : List Event) (s : State) : State := evs.foldl (fun s e => afterEvent e s) s

@[simp] theorem afterEvents_nil (s : State) : afterEvents [] s = s := rfl

@[simp] theorem afterEvents_cons (e : Event) (evs : List Event) (s : State) :
    afterEvents (e :: evs) s = afterEvents evs (afterEvent e s) := rfl

theorem afterEvents_concat (evs : List Event) (e : Event) (s : State) :
    afterEvents (evs ++ [e]) s = afterEvent e (afterEvents evs s) := by simp [afterEvents]

theorem afterEvents_cfg (evs : List Event) : ∀ s : State, (afterEvents evs s).cfg = s.cfg := by
  induction evs with
  | nil => intro s; rfl
  | cons e evs ih => intro s; exact (ih _).trans (afterEvent_cfg e s)

theorem afterEvents_withInputs (evs : List Event) : ∀ (s : State) (l : List StepInput),
    afterEvents evs { s with inputs := l } = { afterEvents evs s with inputs := l } := by
  induction evs with
  | nil => intro s l; rfl
  | cons e evs ih => intro s l; rw [afterEvents_cons, afterEvent_withInputs, ih]; rfl

theorem run_succ {n : Nat} {s t : State} (h : step s = .next t) : core.run (n + 1) s = core.run n t := by
  have h' : core.step s = .next t := h
  simp only [Host.Core.run, h']

/-- A run over inputs that present events, said once. -/
theorem run_presents {ins : List StepInput} : ∀ {evs : List Event} {s : State} {later : List StepInput},
    presents ins evs → s.inputs = ins ++ later →
    core.run ins.length s = .next { afterEvents evs s with inputs := later } := by
  induction ins with
  | nil =>
    intro evs s later h hi
    cases evs with
    | nil => simp only [List.nil_append] at hi; subst hi; rfl
    | cons e evs => simp [presents] at h
  | cons a ins ih =>
    intro evs s later h hi
    cases evs with
    | nil => simp [presents] at h
    | cons e evs =>
      simp only [presents, List.map_cons, List.cons.injEq] at h
      have hs : step s = .next (afterEvent e s.restInputs) := step_eq (by simp [State.nextEvent, hi, h.1])
      have hr : s.restInputs = { s with inputs := ins ++ later } := by simp [State.restInputs, hi]
      rw [List.length_cons, run_succ hs, hr, afterEvent_withInputs, ih (evs := evs) (later := later) h.2 rfl,
        afterEvents_withInputs]
      rfl

/-! ## Faults along a run -/

theorem reportedFaults_cons (e : Event) (evs : List Event) (s : State) :
    reportedFaults (e :: evs) s = eventFault e s :: reportedFaults evs (afterEvent e s) := by
  rw [reportedFaults, doEvent_eq]

/-- NOP and READ keep FRAME and VALID (R20). -/
theorem afterEvent_keeps_frame {e : Event} (h : eventEndsFrame e = false) (s : State) :
    (afterEvent e s).frame = s.frame ∧ (afterEvent e s).valid = s.valid := by
  rcases e with _ | ⟨_ | t | _ | p⟩ <;> simp [eventEndsFrame] at h
  · simp [afterEvent]
  · simp only [afterEvent]; split <;> simp

/-- ERR and ERRCAUSE after any event but CLEAR and reset (R79). -/
theorem afterEvent_flags {e : Event} (h : eventClears e = false) (s : State) :
    (eventFault e s = .none → (afterEvent e s).err = s.err ∧ (afterEvent e s).errcause = s.errcause) ∧
    (eventFault e s ≠ .none → (afterEvent e s).err = true ∧
      (afterEvent e s).errcause = causeAfterFault s.err s.errcause (eventFault e s)) := by
  rcases e with _ | ⟨_ | t | _ | p⟩ <;> simp [eventClears] at h
  · simp [eventFault, faultOf, afterEvent]
  · simp only [eventFault, faultOf, afterEvent]; split_ifs with hc <;> simp [hc]
  · simp only [eventFault, faultOf, afterEvent]
    rcases readOperand_cases p s.frameHeld with ⟨-, hr⟩ | ⟨-, -, hr⟩ | ⟨_, f, -, hr⟩ <;> simp [hr]

end Sys2Proof.Machine
end

