-- ==== Sys2Proof/Tests/Slice0.lean ====
section
/-! SUPPORT. Tests of the model against the spec's own tables and vectors (spec/95_test_vectors.md; each test names its
vector), the smoke tests of well-formedness, and for each statement with hypotheses a witness that meets them. -/

namespace Sys2Proof.Tests

open Sys2Proof Sys2Proof.Machine

/-! ## States and inputs of the tests -/

/-- V-S1: 2024-01-07 03:04, a Sunday. -/
def sunday : Timestamp := ⟨2024, 1, 7, 3, 4, 6⟩

/-- The same with month 13 (V-X2). -/
def badMonth : Timestamp := ⟨2024, 13, 7, 3, 4, 6⟩

/-- VALID = 1 holding the V-E1 frame, ERR = 0: the start state of 2.5 and 2.6. -/
def held : State := { State.reset with frame := some (encodeFrame .p50 sunday), valid := true }

/-- A state with inputs to come. -/
def given (s : State) (ins : List StepInput) : State := { s with inputs := ins }

/-- ERR = 1 with a cause recorded. -/
def faulted : State := { State.reset with err := true, errcause := .monthRange }

/-- A command on the ports with every unread port at 0. -/
def portsOf (cmd : BitVec 2) : Ports := ⟨cmd, 0, 0, 0, 0, 0, 0, 0, false⟩

/-- The frame string a result's FRAME spells. -/
def resultChars : Result → Option (List Char)
  | .next t => t.frame.map frameChars
  | .fault _ => none
  | .refused _ => none

/-- STATUS after a result. -/
def resultStatus : Result → Option (BitVec 5)
  | .next t => some t.statusOut
  | .fault _ => none
  | .refused _ => none

/-- `rd_sym` after a result, where a READ has set it. -/
def resultRdSym : Result → Option SymbolCode
  | .next t => t.rdSym
  | .fault _ => none
  | .refused _ => none

/-! ## Well-formedness: one ill-formed line for each operand check (R51) -/

theorem smoke_year : (AsmLine.encode 65536 1 1 0 0 0).wf = false := by decide
theorem smoke_month : (AsmLine.encode 2024 16 1 0 0 0).wf = false := by decide
theorem smoke_day : (AsmLine.encode 2024 1 32 0 0 0).wf = false := by decide
theorem smoke_hour : (AsmLine.encode 2024 1 1 32 0 0).wf = false := by decide
theorem smoke_minute : (AsmLine.encode 2024 1 1 0 64 0).wf = false := by decide
theorem smoke_dow : (AsmLine.encode 2024 1 1 0 0 8).wf = false := by decide
theorem smoke_pos : (AsmLine.read 64).wf = false := by decide
theorem smoke_fits : (AsmLine.encode 65535 15 31 31 63 7).wf = true := by decide

/-! ## Decoding: words written out from the bit patterns of R47 to R49 -/

theorem test_decode_nop : decode 0b000000000000000000000000000000000000000000000000#48 = .ok .nop := by decide
theorem test_decode_clear : decode 0b000000000000000000000000000000000000000000000010#48 = .ok .clear := by decide
/-- Forty zeros, pppppp = 101100 (44), 11 (V-R10). -/
theorem test_decode_read : decode 0b000000000000000000000000000000000000000010110011#48 = .ok (.read 44) := by decide
/-- 0000000 www nnnnnn hhhhh ddddd mmmm yyyyyyyyyyyyyyyy 01 with w = 110, n = 000100, h = 00011, d = 00111, m = 0001,
y = 0000011111101000. -/
theorem test_decode_encode :
    decode 0b000000011000010000011001110001000001111110100001#48 = .ok (.encode sunday) := by decide
/-- Every operand bit at 1: the widths of R47. -/
theorem test_decode_encode_ones : decode 0x01FFFFFFFFFD#48 = .ok (.encode ⟨65535, 15, 31, 31, 63, 7⟩) := by decide
/-- V-D9 and the lowest and highest must-be-0 bits of the three formats (R47 to R49). -/
theorem test_decode_refused :
    [0x000000000004#48, 0x800000000002#48, 0x000000000103#48, 0x800000000003#48, 0x020000000001#48,
      0x800000000001#48].map decode =
    [.error (.mustBeZero .nop), .error (.mustBeZero .clear), .error (.mustBeZero .read), .error (.mustBeZero .read),
      .error (.mustBeZero .encode), .error (.mustBeZero .encode)] := by decide
/-- The words of V-E1, V-E3, V-R14 and V-C1. -/
theorem test_encode_words :
    encode (.encode sunday) = 0x018419C41FA1#48 ∧ encode (.encode ⟨2099, 12, 31, 23, 59, 3⟩) = 0x00FBBFF020CD#48 ∧
    encode (.read 59) = 0x0000000000EF#48 ∧ encode .clear = 0x000000000002#48 := by decide
theorem test_table_word : decodeTableWord 48 0x018419C41FA1 = some (.encode sunday) ∧ decodeTableWord 48 4 = none := by
  decide

/-! ## The frame function (section 2.1 to 2.4) -/

/-- V-B12 and V-B16. -/
theorem test_bcd : bcd 45 2 = [false, true, false, false, false, true, false, true] ∧
    bcd 7 1 = [false, true, true, true] := by decide
/-- V-E3, every field at its maximum. -/
theorem test_frame_maximum : frameChars (encodeFrame .p50 ⟨2099, 12, 31, 23, 59, 3⟩) =
    "M10011001M100100000M110001000M100011000M101100100M001000000M".toList := by decide +kernel
/-- V-E7, year2 = 35 from 65535. -/
theorem test_frame_year : frameChars (encodeFrame .p50 ⟨65535, 2, 29, 12, 30, 1⟩) =
    "M00110101M000100000M101001000M010010000M011000000M010000000M".toList := by decide +kernel
/-- V-E9, the observed overlap with WDAY_POS = 45. -/
theorem test_frame_overlap : frameChars (encodeFrame .p45 ⟨2024, 1, 13, 3, 7, 5⟩) =
    "M00100100M000010000M010011000M000011000M000010110M000000000M".toList := by decide +kernel
/-- V-E9 and V-E10: minute 7 on a Saturday reads back as 5 with WDAY_POS = 45 and as 7 with 50. -/
theorem test_read_back : readBack (encodeFrame .p45 ⟨2024, 1, 13, 3, 7, 5⟩) 40 46 = some 5 ∧
    readBack (encodeFrame .p50 ⟨2024, 1, 13, 3, 7, 5⟩) 40 46 = some 7 := by decide +kernel
/-- V-E2's FRAME_OUT. -/
theorem test_frame_out :
    packFrame (encodeFrame .p50 ⟨2024, 1, 13, 3, 4, 5⟩) = 0x800148010080500805048010081042#120 := by decide +kernel
/-- The weights of R41's table at positions 1, 10, 20, 30, 40 and 52, and its counts of markers and ZEROs. -/
theorem test_layout_weights :
    ([1, 10, 20, 30, 40, 52].map fun p => ((layout .p50)[p]?.map Slot.weight)) =
      [some 80, some 10, some 20, some 20, some 40, some 4] ∧
    (layout .p50).count .marker = 7 ∧ (layout .p50).count .zero = 18 ∧ (zeroPositions .p50).length = 18 := by decide

/-! ## The commands (section 2.4 to 2.6) -/

/-- V-E1, with V-S1's frame. -/
theorem test_encode : resultChars (exec (.encode sunday) State.reset) =
    some "M00100100M000010000M000111000M000011000M000010000M000000000M".toList := by decide +kernel
/-- V-X10: the lowest code among five failing checks, VALID cleared. -/
theorem test_encode_fault : resultStatus (exec (.encode ⟨2024, 0, 0, 24, 60, 7⟩) held) = some 0b00110#5 := by decide
/-- V-R10. -/
theorem test_read : resultRdSym (exec (.read 44) held) = some 0b01#2 ∧
    resultStatus (exec (.read 44) held) = some 0b00001#5 := by decide +kernel
/-- V-R15 and V-R18. -/
theorem test_read_fault : resultStatus (exec (.read 60) held) = some 0b11011#5 ∧
    resultStatus (exec (.read 60) State.reset) = some 0b11010#5 ∧ resultRdSym (exec (.read 60) held) = none := by decide
/-- V-C1. -/
theorem test_clear : resultStatus (exec .clear faulted) = some 0b00000#5 := by decide
/-- V-N1. -/
theorem test_nop : resultStatus (exec .nop held) = some 0b00001#5 ∧
    resultChars (exec .nop held) = some (frameChars (encodeFrame .p50 sunday)) := by decide +kernel
/-- V-K2: the reset wins over the ENCODE presented with it. -/
theorem test_reset_wins : resultStatus
    (step (given held [.ports { commandPorts (.encode sunday) with rst := true }])) = some 0b00000#5 := by decide

/-! ## The assembler's notation (R51) -/

theorem test_assemble_encode : assemble "ENCODE 2024, 1, 7, 3, 4, 6 ; Sunday\nREAD 44".toList =
    .ok [.word 0x018419C41FA1#48, .word 0x0000000000B3#48] := by decide
theorem test_assemble_oversize : assemble "READ 64".toList = .error .operandTooLarge := by decide

/-! ## Witnesses: the hypotheses of each statement can be met -/

theorem calendar_upper : inCalendar ⟨65535, 12, 31, 23, 59, 6⟩ := by decide
theorem calendar_lower : inCalendar ⟨0, 1, 1, 0, 0, 0⟩ := by decide

theorem legal_sunday : frameLegal .p50 (encodeFrame .p50 sunday) := by unfold frameLegal; decide +kernel

theorem held_inv : held.Inv := ⟨by decide, fun _ => ⟨_, rfl, legal_sunday⟩, by decide⟩

theorem witness_DecoderTakesExactlyCanonicalWords :
    (∀ k, 41 ≤ k → k < 48 → (0x01FFFFFFFFFD#48).getLsbD k = false) ∧ (0x020000000001#48).getLsbD 41 = true ∧
    (0x000000000103#48).getLsbD 8 = true ∧ (0x000000000004#48).getLsbD 2 = true ∧
    (0x800000000002#48).getLsbD 47 = true := by decide

theorem witness_DecodedOperandsAreTheWordsBits :
    decode 0x01FFFFFFFFFD#48 = .ok (.encode ⟨65535, 15, 31, 31, 63, 7⟩) ∧ decode 0x0000000000FF#48 = .ok (.read 63) := by
  decide

theorem witness_PortsPresentTheCommandOfCmd :
    [0b00#2, 0b01#2, 0b10#2, 0b11#2].map (fun c => (portsOf c).rst) = [false, false, false, false] := by decide

/-- A READ and an ENCODE, each beside one that differs in an unread port only. -/
theorem witness_UnreadPortsHaveNoEffect :
    (portsOf 0b11#2).rdPos = { portsOf 0b11#2 with tsDay := 9 }.rdPos ∧
    portsOf 0b11#2 ≠ { portsOf 0b11#2 with tsDay := 9 } ∧
    (portsOf 0b01#2).tsDay = { portsOf 0b01#2 with rdPos := 9 }.tsDay ∧
    portsOf 0b01#2 ≠ { portsOf 0b01#2 with rdPos := 9 } := by decide

theorem witness_StepRunsThePresentedCommand :
    (given held [.word 0x0000000000B3#48]).inputs = [.word 0x0000000000B3#48] ∧
    decode 0x0000000000B3#48 = .ok (.read 44) ∧ (portsOf 0b11#2).rst = false ∧
    decodeTableWord 48 0x0000000000B3 = some (.read 44) ∧ State.reset.inputs = [] := by decide

theorem witness_StepRefusesWordsThatSpellNoCommand :
    (given held [.word 0x000000000004#48]).inputs = [.word 0x000000000004#48] ∧
    canonical 0x000000000004#48 = false := by decide

theorem witness_ResetIsAppliedAndTheCommandIgnored :
    { commandPorts (.encode sunday) with rst := true }.rst = true ∧
    (given held [.ports { commandPorts (.encode sunday) with rst := true }]).inputs =
      [.ports { commandPorts (.encode sunday) with rst := true }] := by decide

theorem witness_EveryCommandCompletesInItsStep :
    eventOf (.word 0x0000000000FF#48) = .ok (.command (.read 63)) ∧
    eventOf (.ports { portsOf 0b01#2 with rst := true }) = .ok .reset := by decide

/-- Within the bounds at both ends, and the first value outside each of them (day 32 fits no port). -/
theorem witness_EncodeLoadsTheFrameOrFaults :
    inCalendar ⟨65535, 12, 31, 23, 59, 6⟩ ∧ inCalendar ⟨0, 1, 1, 0, 0, 0⟩ ∧
    ¬(1 ≤ (13#4).toNat ∧ (13#4).toNat ≤ 12) ∧ ¬(1 ≤ (0#4).toNat ∧ (0#4).toNat ≤ 12) ∧
    ¬(1 ≤ (0#5).toNat ∧ (0#5).toNat ≤ 31) ∧ ¬(24#5).toNat ≤ 23 ∧ ¬(60#6).toNat ≤ 59 ∧ ¬(7#3).toNat ≤ 6 := by decide

/-- The last position in range with VALID = 1 and with VALID = 0, and both ends of the range outside. -/
theorem witness_ReadDrivesTheSymbolOrFaults :
    (0#6).toNat < 60 ∧ (59#6).toNat < 60 ∧ held.valid = true ∧ held.frame = some (encodeFrame .p50 sunday) ∧
    60 ≤ (60#6).toNat ∧ 60 ≤ (63#6).toNat ∧ State.reset.valid = false := by decide +kernel

theorem witness_OnlyTheFourElementsCrossACommand :
    let other : State := { held with draws := 9, rdSym := some 0b01#2, inputs := [.word 0] }
    held.cfg = other.cfg ∧ held.frame = other.frame ∧ held.valid = other.valid ∧ held.err = other.err ∧
    held.errcause = other.errcause ∧ (∃ t, exec (.read 3) held = .next t) ∧ ∃ u, exec (.read 3) other = .next u :=
  ⟨rfl, rfl, rfl, rfl, rfl, ⟨_, rfl⟩, ⟨_, rfl⟩⟩

/-- VALID rising by an ENCODE, kept by a READ, and falling by a faulting ENCODE, by CLEAR and by reset. -/
theorem witness_ValidChangesOnlyAsListed :
    (∃ t, step (given State.reset [commandInput (.encode sunday)]) = .next t ∧ t.valid = true) ∧
    (∃ t, step (given held [commandInput (.read 60)]) = .next t ∧ t.valid = true) ∧
    (∃ t, step (given held [commandInput (.encode badMonth)]) = .next t ∧ t.valid = false) ∧
    (∃ t, step (given held [commandInput .clear]) = .next t ∧ t.valid = false) ∧
    (∃ t, step (given held [resetInput]) = .next t ∧ t.valid = false) :=
  ⟨⟨_, rfl, rfl⟩, ⟨_, rfl, rfl⟩, ⟨_, rfl, rfl⟩, ⟨_, rfl, rfl⟩, ⟨_, rfl, rfl⟩⟩

theorem witness_ErrIsClearedOnlyByClearOrReset :
    (given faulted [commandInput (.encode sunday)]).nextEvent = .ok (.command (.encode sunday)) ∧ faulted.err = true ∧
    (∃ t, step (given faulted [commandInput (.encode sunday)]) = .next t) ∧
    (given faulted [commandInput .clear]).nextEvent = .ok (.command .clear) ∧
    (given faulted [resetInput]).nextEvent = .ok .reset := ⟨by decide +kernel, rfl, ⟨_, rfl⟩, rfl, rfl⟩

/-- A first fault, a fault while ERR = 1, and no fault. -/
theorem witness_FaultsAreRecorded :
    faultOf (.read 60) held = .posRange ∧ held.err = false ∧ faultOf (.read 60) faulted = .posRange ∧
    faulted.err = true ∧ faultOf (.read 59) held = .none := by decide

/-- A faulting ENCODE and the two faults of READ. -/
theorem witness_FaultsHaveOnlyTheListedEffects :
    faultOf (.encode badMonth) held = .monthRange ∧ faultOf (.read 63) held = .posRange ∧
    faultOf (.read 59) State.reset = .noFrame ∧ (∃ t, step (given held [commandInput (.encode badMonth)]) = .next t) ∧
    ∃ t, step (given held [commandInput (.read 63)]) = .next t := ⟨by decide, by decide, by decide, ⟨_, rfl⟩, ⟨_, rfl⟩⟩

/-- A READ that does not fault, one that does, and a NOP. -/
theorem witness_RdSymIsDefinedOnlyByASuccessfulRead :
    resultRdSym (step (given held [commandInput (.read 0)])) = some 0b10#2 ∧
    resultStatus (step (given held [commandInput (.read 60)])) = some 0b11011#5 ∧
    resultRdSym (step (given held [commandInput (.read 60)])) = none ∧ resultStatus (step held) = some 0b00001#5 ∧
    resultRdSym (step held) = none := by decide +kernel

theorem witness_FrameIsWrittenOnlyByEncode :
    (∃ t, step (given State.reset [commandInput (.encode sunday)]) = .next t ∧ t.frame ≠ none) ∧
    (∃ t, step (given held [commandInput .clear]) = .next t ∧ t.frame ≠ held.frame) :=
  ⟨⟨_, rfl, by decide⟩, ⟨_, rfl, by decide⟩⟩

theorem witness_StepKeepsTheInvariant : held.Inv ∧ ∃ t, step held = .next t := ⟨held_inv, ⟨_, rfl⟩⟩

theorem witness_ValidFrameIsTheLastEncodes :
    presents [resetInput, commandInput (.encode sunday), commandInput (.read 0)]
      ([.reset] ++ .command (.encode sunday) :: [.command (.read 0)]) ∧
    ∀ e ∈ [Event.command (.read 0)], eventEndsFrame e = false := by decide

theorem witness_ErrcauseIsTheFirstFault :
    presents [commandInput (.read 60), commandInput (.encode badMonth)]
      [.command (.read 60), .command (.encode badMonth)] ∧
    (∀ e ∈ [Event.command (.read 60), .command (.encode badMonth)], eventClears e = false) ∧
    State.reset.err = false ∧ State.reset.errcause = .none := by decide

theorem witness_ReadReportsNoFrameUntilAnEncode :
    presents [commandInput (.encode badMonth)] [.command (.encode badMonth)] ∧ (59#6).toNat < 60 ∧
    ¬inCalendar badMonth := by decide

theorem witness_FrameFollowsTheLayoutTable : inCalendar sunday := by decide

theorem witness_MarkersAreInvariant : inCalendar sunday ∧ ∃ u, exec (.encode sunday) held = .next u :=
  ⟨by decide, ⟨_, rfl⟩⟩

/-- Both values of WDAY_POS. -/
theorem witness_UnusedPositionsAreZero : inCalendar sunday ∧ (∃ u, exec (.encode sunday) held = .next u) ∧
    ∃ u, exec (.encode sunday) { held with cfg := ⟨.p45⟩ } = .next u := ⟨by decide, ⟨_, rfl⟩, ⟨_, rfl⟩⟩

theorem witness_BcdGivesDigitsMostSignificantFirst : 1 < 2 ∧ 3 < 4 ∧ (bcd 80 2)[0]? = some true := by decide

theorem witness_SlicesDropOnlyZeroBits : inCalendar ⟨65535, 12, 31, 23, 59, 6⟩ := by decide

theorem witness_WeekdayIsConvertedToSundayZero : (6#3).toNat ≤ 6 ∧ (0#3).toNat ≤ 6 := by decide

theorem witness_FieldsReadBackAtFifty : inCalendar ⟨65535, 12, 31, 23, 59, 6⟩ ∧ inCalendar ⟨0, 1, 1, 0, 0, 0⟩ := by
  decide

/-- A minute that reads back with WDAY_POS = 45 (minute 3 with wd 3) and one that does not (minute 0 with wd 1), C9. -/
theorem witness_MinuteReadsBackAtFortyFiveExactlyWhen :
    inCalendar ⟨2024, 1, 1, 0, 3, 2⟩ ∧ readBack (encodeFrame .p45 ⟨2024, 1, 1, 0, 3, 2⟩) 40 46 = some 3 ∧
    inCalendar ⟨2024, 1, 1, 0, 0, 0⟩ ∧ readBack (encodeFrame .p45 ⟨2024, 1, 1, 0, 0, 0⟩) 40 46 ≠ some 0 := by decide +kernel

/-- Two years that agree mod 100, from two different states (R55). -/
theorem witness_EncodeIsPure : inCalendar sunday ∧ sunday.year.toNat % 100 = (1924#16).toNat % 100 ∧
    held.cfg.wdayPos = faulted.cfg.wdayPos ∧ (∃ u, exec (.encode sunday) held = .next u) ∧
    ∃ u, exec (.encode { sunday with year := 1924 }) faulted = .next u :=
  ⟨by decide, by decide, rfl, ⟨_, rfl⟩, ⟨_, rfl⟩⟩

theorem witness_FrameOutPacksTheFrame : held.valid = true ∧ held.frame = some (encodeFrame .p50 sunday) ∧
    State.reset.valid = false := by decide +kernel

/-- V-E1's word spells its frame; a word with `11` at position 0 spells none. -/
theorem witness_UnpackingRefusesTheReservedCode :
    unpackFrame 0x800008010080500805408010081042#120 = some (encodeFrame .p50 sunday) ∧
    unpackFrame 0x800008010080500805408010081043#120 = none := by decide +kernel

theorem witness_OutputsNeverShowTheReservedCode :
    held.Inv ∧ held.valid = true ∧ faultOf (.read 59) held = .none ∧ ∃ t, exec (.read 59) held = .next t :=
  ⟨held_inv, rfl, by decide, ⟨_, rfl⟩⟩

theorem witness_ReadRightAfterEncodeSeesTheNewFrame : (59#6).toNat < 60 ∧ inCalendar sunday ∧
    (given faulted [.word (encode (.encode sunday)), .word (encode (.read 59))]).inputs =
      [.word (encode (.encode sunday)), .word (encode (.read 59))] := by decide

theorem witness_ReadsNeverChangeFrameOrValid :
    presents [commandInput .nop, commandInput (.read 63)] [.command .nop, .command (.read 63)] := by decide

theorem witness_ReadAllReturnsTheFrame : held.valid = true ∧ held.frame = some (encodeFrame .p50 sunday) ∧
    (given held (lineInputs .readAll)).inputs = lineInputs .readAll ++ [] := by decide +kernel

theorem witness_OversizeOperandsDoNotAssemble :
    assembleLine (.encode 65535 15 31 31 63 7) = .ok (lineInputs (.encode 65535 15 31 31 63 7)) ∧
    assembleLine (.read 63) = .ok (lineInputs (.read 63)) ∧ assembleLine (.read 64) = .error .operandTooLarge := by decide

theorem witness_AssembledLinesPresentTheirCommands :
    assembleLine (.encode 2024 1 7 3 4 6) = .ok [.word 0x018419C41FA1#48] ∧
    assembleLine (.read 59) = .ok [.word 0x0000000000EF#48] := by decide

end Sys2Proof.Tests
end

/-! # The state's family: proofs about what an event leaves in the state (spec/10_state.md R20 to R29) -/

namespace Sys2Proof.Machine

/-! ## One step, from its event -/

@[simp] theorem State.restInputs_cfg (s : State) : s.restInputs.cfg = s.cfg := rfl
@[simp] theorem State.restInputs_frame (s : State) : s.restInputs.frame = s.frame := rfl
@[simp] theorem State.restInputs_valid (s : State) : s.restInputs.valid = s.valid := rfl
@[simp] theorem State.restInputs_err (s : State) : s.restInputs.err = s.err := rfl
@[simp] theorem State.restInputs_errcause (s : State) : s.restInputs.errcause = s.errcause := rfl

/-- The coming inputs do not matter to what a command reports. -/
@[simp] theorem faultOf_restInputs (i : Instr) (s : State) : faultOf i s.restInputs = faultOf i s := by
  cases i <;> rfl

theorem eq_afterEvent_of_step {s t : State} {e : Event} (he : s.nextEvent = .ok e) (h : step s = .next t) :
    t = afterEvent e s.restInputs := by
  rw [step_eq he] at h
  exact (Host.Outcome.next.inj h).symm

/-! ## ENCODE and READ, by outcome -/

theorem afterEvent_encode_of_inCalendar {t : Timestamp} (h : inCalendar t) (s : State) :
    afterEvent (.command (.encode t)) s = s.loadFrame (encodeFrame s.cfg.wdayPos t) :=
  if_pos ((encodeCheck_none t).2 h)

theorem afterEvent_encode_of_not_inCalendar {t : Timestamp} (h : ¬inCalendar t) (s : State) :
    afterEvent (.command (.encode t)) s = s.raiseFault .encode (encodeCheck t) :=
  if_neg (mt (encodeCheck_none t).1 h)

theorem frameHeld_eq_some {s : State} {f : Frame} : s.frameHeld = some f ↔ s.valid = true ∧ s.frame = some f := by
  cases hv : s.valid <;> simp [State.frameHeld, hv]

/-- A READ faults with the cause it reports, or drives the symbol at its position of the frame held (R67, R78). -/
theorem afterEvent_read_cases (pos : BitVec 6) (s : State) :
    (faultOf (.read pos) s ≠ .none ∧
      afterEvent (.command (.read pos)) s = s.raiseFault .read (faultOf (.read pos) s)) ∨
    (∃ (f : Frame) (h : pos.toNat < 60), s.valid = true ∧ s.frame = some f ∧ faultOf (.read pos) s = .none ∧
      afterEvent (.command (.read pos)) s = s.driveRdSym f[pos.toNat]) := by
  rcases readOperand_cases pos s.frameHeld with ⟨-, hr⟩ | ⟨-, -, hr⟩ | ⟨h, f, hf, hr⟩
  · left; simp [faultOf, afterEvent, hr]
  · left; simp [faultOf, afterEvent, hr]
  · obtain ⟨hv, hf⟩ := frameHeld_eq_some.1 hf
    exact .inr ⟨f, h, hv, hf, by simp [faultOf, hr], by simp [afterEvent, hr]⟩

/-! ## Only the four elements cross a command (R28) -/

/-- What is not the block's state (the last READ's value, the draws and the coming inputs) does not matter to an
event. -/
theorem afterEvent_withModelFields (e : Event) (s : State) (c : Option SymbolCode) (n : Nat) (l : List StepInput) :
    afterEvent e { s with rdSym := c, draws := n, inputs := l } =
      { afterEvent e s with draws := n + 1, inputs := l } := by
  rcases e with _ | ⟨_ | t | _ | pos⟩
  · rfl
  · rfl
  · simp only [afterEvent]; split_ifs <;> rfl
  · rfl
  · have h : ({ s with rdSym := c, draws := n, inputs := l } : State).frameHeld = s.frameHeld := rfl
    simp only [afterEvent, h]; split <;> rfl

/-- Settles O17: a state that agrees on the four elements and the parameter is the other one with model fields of its
own, which an event ignores. -/
theorem onlyTheFourElementsCrossACommand : Obligations.OnlyTheFourElementsCrossACommand := by
  intro i s r t u hcfg hframe hvalid herr hcause ht hu
  rw [exec_eq] at ht hu
  cases ht
  cases hu
  have hr : r = { s with rdSym := r.rdSym, draws := r.draws, inputs := r.inputs } := by
    rw [hcfg, hframe, hvalid, herr, hcause]
  have key := afterEvent_withModelFields (.command i) s r.rdSym r.draws r.inputs
  rw [← hr] at key
  rw [key]
  exact ⟨rfl, rfl, rfl, rfl, rfl, afterEvent_cfg _ s, afterEvent_inputs _ s⟩

/-! ## VALID (R20) -/

/-- Which events leave VALID = 1. -/
theorem afterEvent_valid_iff (e : Event) (s : State) :
    (afterEvent e s).valid = true ↔ (∃ ts, e = .command (.encode ts) ∧ inCalendar ts) ∨
      (s.valid = true ∧ (e = .command .nop ∨ ∃ pos, e = .command (.read pos))) := by
  rcases e with _ | ⟨_ | t | _ | pos⟩
  · simp [afterEvent]
  · simp [afterEvent]
  · by_cases h : inCalendar t
    · simpa [afterEvent_encode_of_inCalendar h] using h
    · simp [afterEvent_encode_of_not_inCalendar h, h]
  · simp [afterEvent]
  · simp [(afterEvent_keeps_frame (e := .command (.read pos)) rfl s).2]

/-- Settles O18. -/
theorem validChangesOnlyAsListed : Obligations.ValidChangesOnlyAsListed := by
  intro e s t he h
  obtain rfl := eq_afterEvent_of_step he h
  refine ⟨afterEvent_valid_iff e s.restInputs, ?_, ?_⟩
  · rintro ts rfl hts
    simp [afterEvent_encode_of_inCalendar hts]
  · intro hkeep
    have hends : eventEndsFrame e = false := by rcases hkeep with rfl | ⟨pos, rfl⟩ <;> rfl
    exact (afterEvent_keeps_frame hends s.restInputs).1

/-! ## `rd_sym` (R26) -/

theorem rdSymOut_of_some {s : State} {c : SymbolCode} (h : s.rdSym = some c) : s.rdSymOut = c := by
  simp [State.rdSymOut, h]

theorem rdSymOut_of_none {s : State} (h : s.rdSym = none) : s.rdSymOut = Config.freeRdSym s.draws := by
  simp [State.rdSymOut, h]

/-- An event puts a value on `rd_sym` exactly when it is a READ that reports no fault, and the value is then the code
of the symbol at its position. -/
theorem afterEvent_rdSym_eq_some {e : Event} {s : State} {c : SymbolCode} :
    (afterEvent e s).rdSym = some c ↔ ∃ (pos : BitVec 6) (f : Frame) (h : pos.toNat < 60),
      e = .command (.read pos) ∧ faultOf (.read pos) s = .none ∧ s.frame = some f ∧
        c = symbolCode f[pos.toNat] := by
  rcases e with _ | ⟨_ | t | _ | pos⟩
  · simp [afterEvent]
  · simp [afterEvent]
  · by_cases h : inCalendar t
    · simp [afterEvent_encode_of_inCalendar h]
    · simp [afterEvent_encode_of_not_inCalendar h]
  · simp [afterEvent]
  · rcases afterEvent_read_cases pos s with ⟨hfault, ha⟩ | ⟨f, hpos, -, hf, hok, ha⟩
    · simp [ha, hfault]
    · simp [ha, hok, hf, hpos, eq_comm]

/-- Settles O22. -/
theorem rdSymIsDefinedOnlyByASuccessfulRead : Obligations.RdSymIsDefinedOnlyByASuccessfulRead := by
  intro e s t he h
  obtain rfl := eq_afterEvent_of_step he h
  refine ⟨⟨?_, ?_⟩, ?_, rdSymOut_of_none⟩
  · rintro ⟨c, hc⟩
    obtain ⟨pos, f, -, rfl, hok, -, -⟩ := afterEvent_rdSym_eq_some.1 hc
    exact ⟨pos, rfl, by simpa using hok⟩
  · rintro ⟨pos, rfl, hok⟩
    rcases afterEvent_read_cases pos s.restInputs with ⟨hfault, -⟩ | ⟨f, hpos, -, -, -, ha⟩
    · simp [hok] at hfault
    · exact ⟨symbolCode f[pos.toNat], by simp [ha]⟩
  · rintro pos c rfl hc
    obtain ⟨_, f, hpos, hp, -, hf, hval⟩ := afterEvent_rdSym_eq_some.1 hc
    cases hp
    exact ⟨f, hpos, hf, hval, rdSymOut_of_some hc⟩

/-! ## ERR and ERRCAUSE (R22) -/

/-- Over events other than CLEAR and reset, ERR is set by any fault, and ERRCAUSE keeps its value or, where ERR was 0,
takes the code of the first fault. -/
theorem afterEvents_flags (evs : List Event) : ∀ s : State, (∀ e ∈ evs, eventClears e = false) →
    (afterEvents evs s).err = (s.err || (reportedFaults evs s).any (· ≠ .none)) ∧
    (afterEvents evs s).errcause =
      causeAfterFault s.err s.errcause (((reportedFaults evs s).find? (· ≠ .none)).getD s.errcause) := by
  induction evs with
  | nil => intro s _; cases hs : s.err <;> simp [reportedFaults, hs]
  | cons e evs ih =>
    intro s hclears
    obtain ⟨hkept, hset⟩ := afterEvent_flags (hclears e List.mem_cons_self) s
    obtain ⟨herr, hcause⟩ := ih (afterEvent e s) fun x hx => hclears x (List.mem_cons_of_mem e hx)
    rw [afterEvents_cons, reportedFaults_cons, herr, hcause]
    by_cases hf : eventFault e s = .none
    · simp [hf, hkept hf]
    · cases hs : s.err <;> simp [hf, hset hf, hs]

/-- Settles O27, from the flags after any such sequence of events, with ERR = 0 and ERRCAUSE = NONE at its start. -/
theorem errcauseIsTheFirstFault : Obligations.ErrcauseIsTheFirstFault := by
  intro s ins later evs hpres hclears hs hc hin
  obtain ⟨herr, hcause⟩ := afterEvents_flags evs s hclears
  refine ⟨_, run_presents hpres hin, ?_, ?_⟩
  · simpa [hs, hc] using hcause
  · simpa [hs] using herr

/-! ## FRAME_OUT (R25, R40) -/

/-- The two bits a frame's packing has for a position are the code of the symbol there. -/
theorem frameOutCode_packFrame (f : Frame) (p : Fin 60) : frameOutCode (packFrame f) p = symbolCode f[p] := by
  have hp : p.val < f.toList.length := by simp
  apply BitVec.eq_of_toNat_eq
  rw [frameOutCode, field_toNat, packFrame_toNat]
  simpa using packSymbols_digit f.toList p hp

theorem frameOut_of_held {s : State} {f : Frame} (h : s.frameHeld = some f) : s.frameOut = packFrame f := by
  simp [State.frameOut, h]

theorem frameOut_of_not_valid {s : State} (h : s.valid = false) : s.frameOut = Config.freeFrameOut s.draws := by
  simp [State.frameOut, State.frameHeld, h]

/-- The statement's way to take a position's two bits is the model's. -/
theorem shiftRight_setWidth_eq_frameOutCode (w : BitVec 120) (p : Nat) :
    (w >>> (2 * p)).setWidth 2 = frameOutCode w p := rfl

/-- Settles O39. -/
theorem frameOutPacksTheFrame : Obligations.FrameOutPacksTheFrame := by
  refine fun s => ⟨fun f hv hf p => ?_, frameOut_of_not_valid⟩
  rw [frameOut_of_held (frameHeld_of_valid hv hf), shiftRight_setWidth_eq_frameOutCode, frameOutCode_packFrame]

/-! ## STATUS (R27, R76) -/

@[simp] theorem codeCause_causeCode (c : Cause) : codeCause (causeCode c) = c := by cases c <;> rfl

theorem statusWord_bit_zero (valid err : Bool) (c : Cause) : (statusWord valid err c).getLsbD 0 = valid := by
  rw [statusWord, BitVec.getLsbD_append]
  simp

theorem statusWord_bit_one (valid err : Bool) (c : Cause) : (statusWord valid err c).getLsbD 1 = err := by
  rw [statusWord, BitVec.getLsbD_append, BitVec.getLsbD_append]
  simp

/-- STATUS as a number: each flag at its weight. -/
theorem statusWord_toNat (valid err : Bool) (c : Cause) :
    (statusWord valid err c).toNat = 4 * (causeCode c).toNat + 2 * err.toNat + valid.toNat := by
  rw [statusWord, append_toNat, append_toNat, BitVec.toNat_ofBool, BitVec.toNat_ofBool]
  omega

/-- Settles O42. -/
theorem statusPacksTheFlags : Obligations.StatusPacksTheFlags := by
  refine ⟨fun s => ⟨?_, ?_, ?_, codeCause_causeCode s.errcause⟩, rfl⟩
  · exact statusWord_bit_zero s.valid s.err s.errcause
  · exact statusWord_bit_one s.valid s.err s.errcause
  · have := s.err.toNat_lt
    have := s.valid.toNat_lt
    rw [State.statusOut, statusWord_toNat]
    omega

/-! ## Reset (R29) -/

/-- Settles O11: with VALID = 0 and no value of a READ, both unspecified outputs are draws. -/
theorem resetStateHasTheResetValues : Obligations.ResetStateHasTheResetValues :=
  ⟨rfl, rfl, rfl, rfl, rfl, rfl, ⟨_, frameOut_of_not_valid rfl⟩, ⟨_, rdSymOut_of_none rfl⟩⟩

end Sys2Proof.Machine

/-! # The encoding's family: command words and ports (spec/30_encoding.md R45 to R50) -/

namespace Sys2Proof

/-! ## The must-be-0 bits -/

/-- The lowest must-be-0 bit of a command's format; the bits above it are must-be-0 too (R47 to R49). -/
def mustBeZeroFrom : Opcode → Nat
  | .encode => 41
  | .read => 8
  | .nop => 2
  | .clear => 2

theorem mustBeZeroFrom_wordOpcode (w : CommandWord) : mustBeZeroFrom (wordOpcode w) =
    if w.toNat % 4 = 1 then 41 else if w.toNat % 4 = 3 then 8 else 2 := by
  have hlow : w.toNat % 4 < 4 := Nat.mod_lt _ (by decide)
  rw [wordOpcode_eq]
  interval_cases w.toNat % 4 <;> rfl

theorem canonical_iff_toNat_lt (w : CommandWord) :
    canonical w = true ↔ w.toNat < 2 ^ mustBeZeroFrom (wordOpcode w) := by
  rw [canonical, mustBeZeroHolds_eq]
  cases wordOpcode w <;> simp [mustBeZeroFrom]

/-- A word is below `2 ^ low` when its bits from `low` up are 0. -/
theorem toNat_lt_two_pow_iff_bits {n : Nat} (w : BitVec n) (low : Nat) :
    w.toNat < 2 ^ low ↔ ∀ k, low ≤ k → k < n → w.getLsbD k = false := by
  constructor
  · intro h k hk _
    exact Nat.testBit_lt_two_pow (h.trans_le (Nat.pow_le_pow_right (by decide) hk))
  · intro h
    refine Nat.lt_pow_two_of_testBit _ fun k hk => ?_
    by_cases hn : k < n
    · exact h k hk hn
    · exact BitVec.getLsbD_of_ge w k (by omega)

theorem canonical_iff_bits (w : CommandWord) : canonical w = true ↔
    ∀ k, mustBeZeroFrom (wordOpcode w) ≤ k → k < 48 → w.getLsbD k = false :=
  (canonical_iff_toNat_lt w).trans (toNat_lt_two_pow_iff_bits w _)

/-! ## The command field -/

/-- The low two bits of a word are its opcode's `cmd` (R45). -/
theorem wordOpcode_cmd_toNat (w : CommandWord) : (wordOpcode w).cmd.toNat = w.toNat % 4 := by
  have hlow : w.toNat % 4 < 4 := Nat.mod_lt _ (by decide)
  rw [wordOpcode_eq]
  interval_cases w.toNat % 4 <;> rfl

/-! ## Decoding is the inverse of encoding -/

theorem canonical_encode (i : Instr) : canonical (encode i) = true := by
  cases i with
  | nop => exact Laws.Canonical.nop
  | encode t => exact Laws.Canonical.encode t
  | clear => exact Laws.Canonical.clear
  | read pos => exact Laws.Canonical.read pos

theorem wordOpcode_encode (i : Instr) : wordOpcode (encode i) = i.opcode := by
  cases i with
  | nop => decide
  | encode t =>
    have hlow : (encode (.encode t)).toNat % 4 = 1 := by rw [encode_encode_toNat]; omega
    simp [wordOpcode_eq, hlow, Instr.opcode]
  | clear => decide
  | read pos =>
    have hlow : (encode (.read pos)).toNat % 4 = 3 := by rw [encode_read_toNat]; omega
    simp [wordOpcode_eq, hlow, Instr.opcode]

theorem wordFields_encode (i : Instr) : wordFields i.opcode (encode i) = i := by
  cases i with
  | nop => rfl
  | encode t => exact congrArg Instr.encode (wordTimestamp_encode t)
  | clear => rfl
  | read pos => exact congrArg Instr.read (wordPosition_encode pos)

theorem decode_encode (i : Instr) : decode (encode i) = .ok i := by
  rw [decode_of_canonical (canonical_encode i), wordOpcode_encode, wordFields_encode]

/-- The fields of a canonical word and its must-be-0 bits are all of it. -/
theorem encode_wordFields {w : CommandWord} (h : canonical w = true) :
    encode (wordFields (wordOpcode w) w) = w := by
  have hlt := (canonical_iff_toNat_lt w).1 h
  have hcmd := wordOpcode_cmd_toNat w
  apply BitVec.eq_of_toNat_eq
  cases hw : wordOpcode w <;> simp only [hw, mustBeZeroFrom, Opcode.cmd, BitVec.toNat_ofNat] at hlt hcmd
  case nop => rw [wordFields, encode_nop_toNat]; omega
  case encode => simp only [wordFields, encode_encode_toNat, wordTimestamp, field_toNat]; omega
  case clear => rw [wordFields, encode_clear_toNat]; omega
  case read => simp only [wordFields, encode_read_toNat, field_toNat]; omega

/-- The decoder takes a word as a command exactly when it is that command's word (R50). -/
theorem decode_eq_ok_iff {w : CommandWord} {i : Instr} : decode w = .ok i ↔ w = encode i := by
  constructor
  · intro h
    cases hc : canonical w with
    | true =>
      rw [decode_of_canonical hc] at h
      rw [← Except.ok.inj h, encode_wordFields hc]
    | false =>
      rw [decode_of_not_canonical hc] at h
      cases h
  · rintro rfl
    exact decode_encode i

theorem decode_eq_ok_iff_toNat {w : CommandWord} {i : Instr} :
    decode w = .ok i ↔ w.toNat = (encode i).toNat := decode_eq_ok_iff.trans BitVec.toNat_eq

/-- Settles O2: a word is canonical exactly when its must-be-0 bits are 0, and a command's only word is its encoding. -/
theorem decoderTakesExactlyCanonicalWords : Obligations.DecoderTakesExactlyCanonicalWords := by
  refine ⟨fun w => ?_, fun i => ⟨encode i, decode_encode i, fun w h => decode_eq_ok_iff.1 h⟩⟩
  simp only [← mustBeZeroFrom_wordOpcode]
  constructor
  · intro hbits
    exact ⟨_, decode_of_canonical ((canonical_iff_bits w).2 hbits)⟩
  · intro k hlow hk hbit
    apply decode_of_not_canonical
    rw [← Bool.not_eq_true, canonical_iff_bits]
    intro hbits
    simp [hbits k hlow hk] at hbit

/-- Settles O3: the decoder takes exactly the command's own word, whose number is the sum of its fields. -/
theorem decodedOperandsAreTheWordsBits : Obligations.DecodedOperandsAreTheWordsBits := by
  refine ⟨fun w t => ?_, fun w pos => ?_, fun w => ?_, fun w => ?_⟩
  · have := t.year.isLt; have := t.month.isLt; have := t.day.isLt
    have := t.hour.isLt; have := t.minute.isLt; have := t.dow.isLt
    rw [decode_eq_ok_iff_toNat, encode_encode_toNat]
    omega
  · have := pos.isLt
    rw [decode_eq_ok_iff_toNat, encode_read_toNat]
    omega
  · rw [decode_eq_ok_iff_toNat, encode_nop_toNat]
  · rw [decode_eq_ok_iff_toNat, encode_clear_toNat]

/-! ## The ports (R46) -/

theorem Opcode.ofCmd_eq (c : BitVec 2) : Opcode.ofCmd c =
    if c.toNat = 0 then .nop else if c.toNat = 1 then .encode else if c.toNat = 2 then .clear else .read := by
  simp [Opcode.ofCmd, BitVec.toNat_eq]

theorem eventOf_ports_of_not_rst {p : Ports} (h : p.rst = false) :
    eventOf (.ports p) = .ok (.command (portCommand p)) := by simp [eventOf, h]

/-- Settles O5. -/
theorem portsPresentTheCommandOfCmd : Obligations.PortsPresentTheCommandOfCmd := by
  intro p hrst
  rw [eventOf_ports_of_not_rst hrst, portCommand, Opcode.ofCmd_eq]
  split_ifs <;> rfl

end Sys2Proof

/-! # The encoding's family: symbols and the frame's layout (spec/30_encoding.md R38 to R44) -/

namespace Sys2Proof.Machine

/-! ## Symbol codes (R38) -/

theorem symbolCode_bitSymbol_bit_zero (b : Bool) : (symbolCode (bitSymbol b)).getLsbD 0 = b := by
  cases b <;> rfl

theorem symbolCode_bit_one_iff (y : Symbol) : (symbolCode y).getLsbD 1 = true ↔ y = .marker := by
  cases y <;> decide

/-- Settles O38. -/
theorem symbolsHaveTheListedCodes : Obligations.SymbolsHaveTheListedCodes :=
  ⟨rfl, rfl, rfl, symbolCode_bitSymbol_bit_zero, symbolCode_bit_one_iff⟩

/-! ## The frame follows the layout table (R41, R44) -/

theorem layout_length (wp : WdayPos) : (layout wp).length = 60 := by cases wp <;> rfl

/-- The pseudocode of R62 fills every position as the tables say, for every timestamp: a weekday is one digit. -/
theorem encodeFrame_toList_eq_layout (wp : WdayPos) (t : Timestamp) :
    (encodeFrame wp t).toList = (layout wp).map (Slot.symbol t) := by
  have hw : weekday t % 10 = weekday t := Nat.mod_eq_of_lt (by have := weekday_lt t; omega)
  rw [encodeFrame_toList, yearField_bits, monthField_bits, dayField_bits, hourField_bits, minuteField_bits]
  cases wp <;>
    simp [frameOfBits, weekdayField, nibble, zeros, layout, layoutHeadRows, layoutTailRows, slots, zeroSlots,
      Slot.symbol, FrameField.value, hw]

/-- The table's slot for a position. -/
def slotAt (wp : WdayPos) (p : Fin 60) : Slot := (layout wp)[p.val]'(by rw [layout_length]; exact p.isLt)

theorem encodeFrame_getElem (wp : WdayPos) (t : Timestamp) (p : Fin 60) :
    (encodeFrame wp t)[p] = (slotAt wp p).symbol t := by
  have h := congrArg (·[p.val]?) (encodeFrame_toList_eq_layout wp t)
  simpa [slotAt, layout_length] using h

theorem slotAt_eq_marker_iff (wp : WdayPos) (p : Fin 60) : slotAt wp p = .marker ↔ p.val ∈ markerSet := by
  cases wp <;> revert p <;> decide

theorem slotAt_eq_zero_iff (wp : WdayPos) (p : Fin 60) : slotAt wp p = .zero ↔ p.val ∈ zeroPositions wp := by
  cases wp <;> revert p <;> decide

/-- Every frame meets R73, whatever the timestamp: the table fixes the markers and the ZERO positions. -/
theorem encodeFrame_legal (wp : WdayPos) (t : Timestamp) : frameLegal wp (encodeFrame wp t) := by
  intro p
  rw [encodeFrame_getElem]
  refine ⟨(slot_symbol_eq_marker t _).trans (slotAt_eq_marker_iff wp p), fun hp => ?_⟩
  rw [(slotAt_eq_zero_iff wp p).2 hp]
  rfl

/-- The ZERO positions of R43 and R44 as ranges. -/
theorem mem_zeroPositions_iff (wp : WdayPos) (p : Fin 60) : p.val ∈ zeroPositions wp ↔
    (15 ≤ p.val ∧ p.val ≤ 18) ∨ (26 ≤ p.val ∧ p.val ≤ 28) ∨ (36 ≤ p.val ∧ p.val ≤ 38) ∨
      (53 ≤ p.val ∧ p.val ≤ 58) ∨ p.val = 48 ∨
      (wp = .p50 ∧ p.val = 47) ∨ (wp = .p45 ∧ 50 ≤ p.val ∧ p.val ≤ 52) := by
  cases wp <;> revert p <;> decide

theorem frame_of_exec_encode {t : Timestamp} {s u : State} (ht : inCalendar t)
    (h : exec (.encode t) s = .next u) : u.frame = some (encodeFrame s.cfg.wdayPos t) := by
  rw [exec_eq, afterEvent_encode_of_inCalendar ht] at h
  cases h
  rfl

/-- Settles O30. -/
theorem markersAreInvariant : Obligations.MarkersAreInvariant := by
  intro t s u ht h
  refine ⟨_, frame_of_exec_encode ht h, fun p => ?_⟩
  rw [(encodeFrame_legal s.cfg.wdayPos t p).1]
  simp [markerSet]

/-- Settles O31: the positions listed are those that R43 and R44 fix to ZERO. -/
theorem unusedPositionsAreZero : Obligations.UnusedPositionsAreZero := by
  intro t s u ht h
  refine ⟨_, frame_of_exec_encode ht h, fun p hp => ?_⟩
  exact (encodeFrame_legal s.cfg.wdayPos t p).2 ((mem_zeroPositions_iff _ p).2 hp)

end Sys2Proof.Machine

/-! # The ENCODE family: ENCODE's checks and its next state (spec/40_frame_encode.md R63; spec/60_exceptions.md R77) -/

namespace Sys2Proof.Machine

/-- `c` is the code of a bound that the timestamp breaks, and the bounds of lower codes hold (R76, R77). -/
def LowestFailingCheck (t : Timestamp) (c : Cause) : Prop :=
  let month := 1 ≤ t.month.toNat ∧ t.month.toNat ≤ 12
  let day := 1 ≤ t.day.toNat ∧ t.day.toNat ≤ 31
  let hour := t.hour.toNat ≤ 23
  let minute := t.minute.toNat ≤ 59
  let dow := t.dow.toNat ≤ 6
  (¬month ∧ c = .monthRange) ∨ (month ∧ ¬day ∧ c = .dayRange) ∨ (month ∧ day ∧ ¬hour ∧ c = .hourRange) ∨
    (month ∧ day ∧ hour ∧ ¬minute ∧ c = .minuteRange) ∨
    (month ∧ day ∧ hour ∧ minute ∧ ¬dow ∧ c = .dowRange)

/-- The conditions of `encodeCheck` are tested in the order of their codes, so those before the failing one are
passed over. -/
theorem encodeCheck_of_lowestFailingCheck {t : Timestamp} {c : Cause} (h : LowestFailingCheck t c) :
    encodeCheck t = c := by
  unfold encodeCheck
  rcases h with ⟨hmonth, rfl⟩ | ⟨hmonth, hday, rfl⟩ | ⟨hmonth, hday, hhour, rfl⟩ |
    ⟨hmonth, hday, hhour, hminute, rfl⟩ | ⟨hmonth, hday, hhour, hminute, hdow, rfl⟩
  · rw [if_pos (by omega)]
  · rw [if_neg (by omega), if_pos (by omega)]
  · rw [if_neg (by omega), if_neg (by omega), if_pos (by omega)]
  · rw [if_neg (by omega), if_neg (by omega), if_neg (by omega), if_pos (by omega)]
  · rw [if_neg (by omega), if_neg (by omega), if_neg (by omega), if_neg (by omega), if_pos (by omega)]

theorem not_inCalendar_of_lowestFailingCheck {t : Timestamp} {c : Cause} (h : LowestFailingCheck t c) :
    ¬inCalendar t := by
  rintro ⟨hmonth, hday, hhour, hminute, hdow⟩
  simp [LowestFailingCheck, *] at h

theorem exec_encode_of_inCalendar {t : Timestamp} (h : inCalendar t) (s : State) :
    exec (.encode t) s = .next (s.loadFrame (encodeFrame s.cfg.wdayPos t)) := by
  rw [exec_eq, afterEvent_encode_of_inCalendar h]

theorem exec_encode_of_lowestFailingCheck {t : Timestamp} {c : Cause} (h : LowestFailingCheck t c) (s : State) :
    exec (.encode t) s = .next (s.raiseFault .encode c) := by
  rw [exec_eq, afterEvent_encode_of_not_inCalendar (not_inCalendar_of_lowestFailingCheck h),
    encodeCheck_of_lowestFailingCheck h]

/-- Settles O15: the two next states are those of loading the frame and of taking the fault, written out. -/
theorem encodeLoadsTheFrameOrFaults : Obligations.EncodeLoadsTheFrameOrFaults :=
  fun _ s => ⟨fun h => exec_encode_of_inCalendar h s, fun _ h => exec_encode_of_lowestFailingCheck h s⟩

end Sys2Proof.Machine

/-! # The frame access family: the next states of NOP, CLEAR and READ (spec/41_frame_access.md R67 to R69;
spec/60_exceptions.md R78) -/

namespace Sys2Proof.Machine

/-- Settles O13: NOP only begins a new step, and a new step leaves the block's state alone. -/
theorem nopWritesNoState : Obligations.NopWritesNoState := fun s => exec_eq .nop s

/-- Settles O14: CLEAR is the return to the reset state, written out. -/
theorem clearReturnsToTheResetState : Obligations.ClearReturnsToTheResetState := fun s => exec_eq .clear s

/-! ## READ, by what its operand access answers -/

theorem frameHeld_of_not_valid {s : State} (hv : s.valid = false) : s.frameHeld = none := by
  simp [State.frameHeld, hv]

theorem readOperand_of_held {pos : BitVec 6} (h : pos.toNat < 60) (f : Frame) :
    readOperand pos (some f) = .ok f[pos.toNat] := dif_pos h

theorem readOperand_of_not_held {pos : BitVec 6} (h : pos.toNat < 60) : readOperand pos none = .error .noFrame :=
  dif_pos h

/-- The position is checked before it is asked whether a frame is held (R78). -/
theorem readOperand_of_position_out_of_range {pos : BitVec 6} (h : 60 ≤ pos.toNat) (held : Option Frame) :
    readOperand pos held = .error .posRange := dif_neg (by omega)

theorem exec_read_of_ok {pos : BitVec 6} {s : State} {y : Symbol} (h : readOperand pos s.frameHeld = .ok y) :
    exec (.read pos) s = .next (s.driveRdSym y) := by
  simp only [exec_eq, afterEvent, h]

theorem exec_read_of_error {pos : BitVec 6} {s : State} {c : Cause} (h : readOperand pos s.frameHeld = .error c) :
    exec (.read pos) s = .next (s.raiseFault .read c) := by
  simp only [exec_eq, afterEvent, h]

/-- Settles O16: the operand access answers the symbol or the cause, and the next states are those of driving `rd_sym`
and of taking the fault, written out. -/
theorem readDrivesTheSymbolOrFaults : Obligations.ReadDrivesTheSymbolOrFaults := by
  intro pos s
  constructor
  · intro f hpos hvalid hframe
    apply exec_read_of_ok
    rw [frameHeld_of_valid hvalid hframe, readOperand_of_held hpos]
  · rintro c (⟨hpos, rfl⟩ | ⟨hpos, hvalid, rfl⟩)
    · exact exec_read_of_error (readOperand_of_position_out_of_range hpos _)
    · apply exec_read_of_error
      rw [frameHeld_of_not_valid hvalid, readOperand_of_not_held hpos]

end Sys2Proof.Machine

/-! # The exceptions family: recording a fault, its effects, and the return from it (spec/60_exceptions.md R79, R80,
R82) -/

namespace Sys2Proof.Machine

/-! ## Where a fault is recorded (R79, R82) -/

theorem eventClears_eq_false_iff {e : Event} : eventClears e = false ↔ e ≠ .reset ∧ e ≠ .command .clear := by
  rcases e with _ | ⟨_ | t | _ | pos⟩ <;> simp [eventClears]

/-- Once ERR is 1, an event other than CLEAR and reset keeps it and the first cause, whether it faults or not. -/
theorem afterEvent_flags_of_err {e : Event} {s : State} (hclears : eventClears e = false) (herr : s.err = true) :
    (afterEvent e s).err = true ∧ (afterEvent e s).errcause = s.errcause := by
  obtain ⟨hkept, hset⟩ := afterEvent_flags hclears s
  by_cases hf : eventFault e s = .none
  · simpa [herr] using hkept hf
  · simpa [herr] using hset hf

/-- Settles O19. -/
theorem errIsClearedOnlyByClearOrReset : Obligations.ErrIsClearedOnlyByClearOrReset := by
  intro e s t he h
  obtain rfl := eq_afterEvent_of_step he h
  constructor
  · rintro (rfl | rfl)
    · exact ⟨rfl, rfl⟩
    · exact ⟨rfl, rfl⟩
  · intro herr hreset hclear
    exact afterEvent_flags_of_err (s := s.restInputs) (eventClears_eq_false_iff.2 ⟨hreset, hclear⟩) herr

/-! ## A faulting command takes its fault and does nothing else (R80) -/

/-- Only ENCODE and READ have checks that can fail (R76). -/
theorem encode_or_read_of_faultOf {i : Instr} {s : State} (hf : faultOf i s ≠ .none) :
    (∃ ts, i = .encode ts) ∨ ∃ pos, i = .read pos := by
  cases i with
  | nop => exact absurd rfl hf
  | clear => exact absurd rfl hf
  | encode ts => exact .inl ⟨ts, rfl⟩
  | read pos => exact .inr ⟨pos, rfl⟩

theorem afterEvent_of_faultOf {i : Instr} {s : State} (hf : faultOf i s ≠ .none) :
    afterEvent (.command i) s = s.raiseFault i.opcode (faultOf i s) := by
  rcases encode_or_read_of_faultOf hf with ⟨ts, rfl⟩ | ⟨pos, rfl⟩
  · exact if_neg hf
  · rcases afterEvent_read_cases pos s with ⟨-, ha⟩ | ⟨_, _, -, -, hok, -⟩
    · exact ha
    · exact absurd hok hf

/-- A step whose command faults. -/
theorem eq_raiseFault_of_step {i : Instr} {s t : State} (he : s.nextEvent = .ok (.command i)) (h : step s = .next t)
    (hf : faultOf i s ≠ .none) : t = s.restInputs.raiseFault i.opcode (faultOf i s) := by
  rw [eq_afterEvent_of_step he h, afterEvent_of_faultOf (by simpa using hf), faultOf_restInputs]

/-- Settles O20. -/
theorem faultsAreRecorded : Obligations.FaultsAreRecorded := by
  intro i s t he h
  constructor
  · intro hf
    obtain rfl := eq_raiseFault_of_step he h hf
    exact ⟨by simp, fun herr => by simp [herr], fun herr => by simp [herr]⟩
  · intro hok hclear
    obtain rfl := eq_afterEvent_of_step he h
    have hclears : eventClears (.command i) = false := eventClears_eq_false_iff.2 ⟨by simp, by simpa using hclear⟩
    have hok' : eventFault (.command i) s.restInputs = .none := (faultOf_restInputs i s).trans hok
    exact (afterEvent_flags hclears s.restInputs).1 hok'

/-- Settles O21: taking a fault writes neither FRAME nor `rd_sym`, and VALID as the faulting command has it. -/
theorem faultsHaveOnlyTheListedEffects : Obligations.FaultsHaveOnlyTheListedEffects := by
  intro i s t he h hf
  obtain rfl := eq_raiseFault_of_step he h hf
  refine ⟨by simp, by simp, ?_, ?_, encode_or_read_of_faultOf hf⟩
  · rintro ts rfl
    rfl
  · rintro pos rfl
    rfl

end Sys2Proof.Machine

/-! # The reset and hazards family: reset beats the command of its step, and no command waits for an earlier one
(spec/70_reset_and_hazards.md R89, R94) -/

namespace Sys2Proof.Machine

/-! ## Reset (R89) -/

/-- No port but `rst` matters to a step with `rst = 1`. -/
theorem eventOf_ports_of_rst {p : Ports} (h : p.rst = true) : eventOf (.ports p) = .ok .reset := by
  simp [eventOf, h]

theorem step_cons {s : State} {input : StepInput} {rest : List StepInput} {e : Event}
    (hin : s.inputs = input :: rest) (he : eventOf input = .ok e) :
    step s = .next (afterEvent e { s with inputs := rest }) := by
  have hnext : s.nextEvent = .ok e := by simpa [State.nextEvent, hin] using he
  rw [step_eq hnext, State.restInputs, hin, List.tail_cons]

/-- Settles O10: a reset and CLEAR are the same return to the reset state. -/
theorem resetIsAppliedAndTheCommandIgnored : Obligations.ResetIsAppliedAndTheCommandIgnored := by
  intro s p rest hin hrst
  rw [step_cons hin (eventOf_ports_of_rst hrst), exec_eq]
  exact ⟨rfl, rfl⟩

/-! ## READ right after ENCODE (R94) -/

theorem presents_commandInput (cmds : List Instr) :
    presents (cmds.map commandInput) (cmds.map .command) := by
  simp [presents, commandInput, eventOf, decode_encode]

theorem frameHeld_loadFrame (f : Frame) (s : State) : (s.loadFrame f).frameHeld = some f :=
  frameHeld_of_valid rfl rfl

theorem afterEvent_read_of_held {pos : BitVec 6} {s : State} {f : Frame} (hpos : pos.toNat < 60)
    (hf : s.frameHeld = some f) : afterEvent (.command (.read pos)) s = s.driveRdSym f[pos.toNat] := by
  simp only [afterEvent, hf, readOperand_of_held hpos]

/-- Settles O43: the ENCODE's step leaves the new frame held, so the outputs show it and a READ finds its symbol. -/
theorem readRightAfterEncodeSeesTheNewFrame : Obligations.ReadRightAfterEncodeSeesTheNewFrame := by
  intro s t pos rest hpos ht hin
  have hencode := afterEvent_encode_of_inCalendar ht s
  have hread := afterEvent_read_of_held hpos (frameHeld_loadFrame (encodeFrame s.cfg.wdayPos t) s)
  constructor
  · refine ⟨_, run_presents (presents_commandInput [.encode t]) hin, ?_, ?_⟩
    · simp [State.statusOut, statusWord_bit_zero, hencode]
    · exact frameOut_of_held (frameHeld_of_valid (by simp [hencode]) (by simp [hencode]))
  · refine ⟨_, run_presents (presents_commandInput [.encode t, .read pos]) hin, ?_, rfl⟩
    simp [hencode, hread]

end Sys2Proof.Machine

/-! # Commands from words and ports (spec/10_state.md R23; spec/30_encoding.md R45 to R50) -/

namespace Sys2Proof.Machine

/-- Settles O1. -/
theorem decodeInvertsEncode : Obligations.DecodeInvertsEncode := decode_encode

/-- Settles O4. -/
theorem specWordsDecodeAsListed : Obligations.SpecWordsDecodeAsListed := by
  unfold Obligations.SpecWordsDecodeAsListed
  decide

/-! ## What an input presents is all that matters of it -/

/-- A step reads its input only through the event it presents. -/
theorem step_congr_eventOf {a b : StepInput} (h : eventOf a = eventOf b) (s : State) (rest : List StepInput) :
    step { s with inputs := a :: rest } = step { s with inputs := b :: rest } := by
  simp only [step, presentNext, present, h]

theorem ofCmd_eq_encode_iff {c : BitVec 2} : Opcode.ofCmd c = .encode ↔ c = 0b01#2 := by
  revert c; decide

theorem ofCmd_eq_read_iff {c : BitVec 2} : Opcode.ofCmd c = .read ↔ c = 0b11#2 := by
  revert c; decide

/-- Two port values present the same command when they agree on `cmd` and on what that command reads (R23). -/
theorem portCommand_congr {p q : Ports} (hcmd : p.cmd = q.cmd)
    (hencode : p.cmd = 0b01#2 → p.tsYear = q.tsYear ∧ p.tsMonth = q.tsMonth ∧ p.tsDay = q.tsDay ∧
      p.tsHour = q.tsHour ∧ p.tsMinute = q.tsMinute ∧ p.tsDow = q.tsDow)
    (hread : p.cmd = 0b11#2 → p.rdPos = q.rdPos) : portCommand p = portCommand q := by
  unfold portCommand
  rw [← hcmd]
  cases hop : Opcode.ofCmd p.cmd with
  | nop => rfl
  | clear => rfl
  | encode =>
    obtain ⟨hyear, hmonth, hday, hhour, hminute, hdow⟩ := hencode (ofCmd_eq_encode_iff.1 hop)
    simp only [hyear, hmonth, hday, hhour, hminute, hdow]
  | read => simp only [hread (ofCmd_eq_read_iff.1 hop)]

/-- Settles O6. -/
theorem unreadPortsHaveNoEffect : Obligations.UnreadPortsHaveNoEffect := by
  intro s rest p q hrst hcmd hencode hread
  apply step_congr_eventOf
  simp only [eventOf, hrst, portCommand_congr hcmd hencode hread]

theorem portCommand_commandPorts (i : Instr) : portCommand (commandPorts i) = i := by cases i <;> rfl

theorem commandPorts_rst (i : Instr) : (commandPorts i).rst = false := by cases i <;> rfl

theorem eventOf_commandPorts (i : Instr) : eventOf (.ports (commandPorts i)) = .ok (.command i) := by
  rw [eventOf_ports_of_not_rst (commandPorts_rst i), portCommand_commandPorts]

theorem eventOf_word_of_decode {w : CommandWord} {i : Instr} (h : decode w = .ok i) :
    eventOf (.word w) = .ok (.command i) := by simp only [eventOf, h]

theorem eventOf_word_of_not_canonical {w : CommandWord} (h : canonical w = false) :
    eventOf (.word w) = .error (.mustBeZero (wordOpcode w)) := by
  simp only [eventOf, decode_of_not_canonical h]

/-- Settles O7: the word and the ports present the same event. -/
theorem wordStandsForItsPortValues : Obligations.WordStandsForItsPortValues := by
  intro s rest i
  apply step_congr_eventOf
  rw [eventOf_word_of_decode (decode_encode i), eventOf_commandPorts]

/-! ## A step by its input -/

/-- A table word that decodes is put at the head of the inputs, as a word (assumption log 11). -/
theorem withFetchWord_of_decodeTableWord {n w : Nat} {i : Instr} (h : decodeTableWord n w = some i) (s : State) :
    ∃ cw : CommandWord, decode cw = .ok i ∧ s.withFetchWord n w = { s with inputs := .word cw :: s.inputs } := by
  unfold decodeTableWord at h
  cases hw : tableWord n w with
  | none => simp [hw] at h
  | some cw =>
    refine ⟨cw, ?_, by simp [State.withFetchWord, State.presentWord, hw]⟩
    simp only [hw] at h
    cases hd : decode cw with
    | error r => rw [hd] at h; cases h
    | ok j => rw [hd] at h; cases h; rfl

/-- A step whose input presents a command is that command on the state with the input taken. -/
theorem step_eq_exec {s : State} {input : StepInput} {rest : List StepInput} {i : Instr}
    (hin : s.inputs = input :: rest) (he : eventOf input = .ok (.command i)) :
    step s = exec i { s with inputs := rest } := by
  rw [step_cons hin he, exec_eq]

/-- Settles O8. -/
theorem stepRunsThePresentedCommand : Obligations.StepRunsThePresentedCommand := by
  refine ⟨?_, ?_, ?_, ?_⟩
  · intro s w i rest hin hdecode
    exact step_eq_exec hin (eventOf_word_of_decode hdecode)
  · intro s p rest hin hrst
    exact step_eq_exec hin (eventOf_ports_of_not_rst hrst)
  · intro s w i hw
    obtain ⟨cw, hdecode, hs⟩ := withFetchWord_of_decodeTableWord hw s
    rw [hs]
    exact step_eq_exec rfl (eventOf_word_of_decode hdecode)
  · intro s hin
    simp only [step, presentNext, hin]

/-- Settles O9. -/
theorem stepRefusesWordsThatSpellNoCommand : Obligations.StepRefusesWordsThatSpellNoCommand := by
  intro s w rest hin hcanonical
  apply step_refused
  simp only [State.nextEvent, hin, eventOf_word_of_not_canonical hcanonical]

/-- Settles O12: every event has a state after it. -/
theorem everyCommandCompletesInItsStep : Obligations.EveryCommandCompletesInItsStep :=
  ⟨fun i s => ⟨_, exec_eq i s⟩, fun _ _ _ _ hin he => ⟨_, step_cons hin he⟩⟩

end Sys2Proof.Machine

/-! # The invariant of the state (spec/10_state.md R22; spec/30_encoding.md R39; spec/41_frame_access.md R73) -/

namespace Sys2Proof.Machine

/-! ## Each shared operation keeps it -/

theorem State.Inv.restInputs {s : State} (h : s.Inv) : s.restInputs.Inv := ⟨h.cause, h.held, h.rdSym⟩

theorem State.Inv.newStep {s : State} (h : s.Inv) : s.newStep.Inv := ⟨h.cause, h.held, by simp⟩

theorem State.inv_returnToReset (s : State) : s.returnToReset.Inv := ⟨by simp, by simp, by simp⟩

theorem State.Inv.loadFrame {s : State} {f : Frame} (h : s.Inv) (hf : frameLegal s.cfg.wdayPos f) :
    (s.loadFrame f).Inv := ⟨h.cause, fun _ => ⟨f, rfl, hf⟩, by simp⟩

theorem State.Inv.driveRdSym {s : State} (h : s.Inv) (y : Symbol) : (s.driveRdSym y).Inv :=
  ⟨h.cause, h.held, by simp⟩

/-- Taking a fault never sets VALID (R80). -/
theorem valid_of_raiseFault_valid {s : State} {op : Opcode} {c : Cause} (h : (s.raiseFault op c).valid = true) :
    s.valid = true := by
  cases op with
  | encode => simp at h
  | nop => exact h
  | clear => exact h
  | read => exact h

/-- With the cause of an earlier fault kept, ERRCAUSE is not NONE after a fault (R22, R79). -/
theorem State.Inv.causeAfterFault_ne_none {s : State} {c : Cause} (h : s.Inv) (hc : c ≠ .none) :
    causeAfterFault s.err s.errcause c ≠ .none := by
  cases herr : s.err with
  | false => exact hc
  | true => exact fun hnone => by simpa [herr] using h.cause.1 hnone

theorem State.Inv.raiseFault {s : State} {c : Cause} (h : s.Inv) (op : Opcode) (hc : c ≠ .none) :
    (s.raiseFault op c).Inv where
  cause := by simpa using h.causeAfterFault_ne_none hc
  held hv := by simpa using h.held (valid_of_raiseFault_valid hv)
  rdSym := by simp

/-! ## Every event keeps it -/

theorem State.Inv.afterEvent {s : State} (h : s.Inv) (e : Event) : (afterEvent e s).Inv := by
  rcases e with _ | ⟨_ | t | _ | pos⟩
  · exact s.inv_returnToReset
  · exact h.newStep
  · by_cases ht : inCalendar t
    · rw [afterEvent_encode_of_inCalendar ht]
      exact h.loadFrame (encodeFrame_legal s.cfg.wdayPos t)
    · rw [afterEvent_encode_of_not_inCalendar ht]
      exact h.raiseFault .encode (mt (encodeCheck_none t).1 ht)
  · exact s.inv_returnToReset
  · rcases afterEvent_read_cases pos s with ⟨hfault, ha⟩ | ⟨f, hpos, -, -, -, ha⟩
    · rw [ha]
      exact h.raiseFault .read hfault
    · rw [ha]
      exact h.driveRdSym f[pos.toNat]

/-- Settles O24. -/
theorem stepKeepsTheInvariant : Obligations.StepKeepsTheInvariant := by
  intro s t hs h
  obtain ⟨e, -, rfl⟩ := step_next h
  exact hs.restInputs.afterEvent e

/-- Settles O25. -/
theorem resetMeetsTheInvariant : Obligations.ResetMeetsTheInvariant :=
  ⟨by decide, fun h => by simp [State.reset] at h, by decide⟩

/-! ## What it says of the outputs (R39) -/

/-- Settles O41: what the outputs show are codes of symbols, and no symbol has the reserved code. -/
theorem outputsNeverShowTheReservedCode : Obligations.OutputsNeverShowTheReservedCode := by
  intro s hs
  constructor
  · intro hvalid p
    obtain ⟨f, hframe, -⟩ := hs.held hvalid
    rw [frameOut_of_held (frameHeld_of_valid hvalid hframe), frameOutCode_packFrame]
    exact symbolCode_ne_reserved f[p]
  · intro pos t hok h
    rw [exec_eq] at h
    cases h
    rcases afterEvent_read_cases pos s with ⟨hfault, -⟩ | ⟨f, hpos, -, -, -, ha⟩
    · exact absurd hok hfault
    · rw [ha, rdSymOut_of_some (State.driveRdSym_rdSym s f[pos.toNat])]
      exact symbolCode_ne_reserved f[pos.toNat]

end Sys2Proof.Machine

/-! # Unpacking a FRAME_OUT word (spec/30_encoding.md R39, R40) -/

namespace Sys2Proof.Machine

/-- A word unpacks to the frame whose symbols its codes spell. -/
theorem unpackFrame_eq_some_iff {w : BitVec 120} {f : Frame} :
    unpackFrame w = some f ↔ ∀ p : Fin 60, codeSymbol (frameOutCode w p) = some f[p] := by
  unfold unpackFrame
  constructor
  · intro h p
    split_ifs at h with hall
    obtain ⟨y, hy⟩ := Option.isSome_iff_exists.1 (hall p)
    rw [← Option.some.inj h, hy]
    simp [hy]
  · intro h
    rw [if_pos fun p => by simp [h p], Option.some_inj]
    exact Vector.ext fun i hi => by simpa using congrArg (Option.getD · .zero) (h ⟨i, hi⟩)

theorem unpackFrame_eq_none_iff {w : BitVec 120} :
    unpackFrame w = none ↔ ∃ p : Fin 60, frameOutCode w p = 0b11#2 := by
  simp [unpackFrame, codeSymbol_eq_none]

/-- A position's code is the reserved one when both its bits are 1. -/
theorem frameOutCode_eq_reserved_iff (w : BitVec 120) (p : Nat) :
    frameOutCode w p = 0b11#2 ↔ w.getLsbD (2 * p) = true ∧ w.getLsbD (2 * p + 1) = true := by
  have hbits : ∀ c : SymbolCode, c = 0b11#2 ↔ c.getLsbD 0 = true ∧ c.getLsbD 1 = true := by decide
  rw [hbits]
  simp [frameOutCode]

/-- Settles O40. -/
theorem unpackingRefusesTheReservedCode : Obligations.UnpackingRefusesTheReservedCode := by
  refine ⟨fun f => ?_, fun w f h => ?_, fun w => ?_⟩
  · exact unpackFrame_eq_some_iff.2 fun p => by rw [frameOutCode_packFrame, codeSymbol_symbolCode]
  · refine frameOut_ext fun p => ?_
    rw [frameOutCode_packFrame, codeSymbol_eq_some (unpackFrame_eq_some_iff.1 h p)]
  · simp only [unpackFrame_eq_none_iff, frameOutCode_eq_reserved_iff]

end Sys2Proof.Machine

/-! # The frame's fields: their bits and reading them back (spec/40_frame_encode.md R53 to R66) -/

namespace Sys2Proof.Machine

/-- Settles O29. -/
theorem frameFollowsTheLayoutTable : Obligations.FrameFollowsTheLayoutTable :=
  fun wp t _ => ⟨encodeFrame_toList_eq_layout wp t, layout_length wp⟩

/-! ## BCD (R53) -/

@[simp] theorem nibble_length (g : Nat) : (nibble g).length = 4 := rfl

theorem nibble_getElem? (g : Nat) {j : Nat} (hj : j < 4) : (nibble g)[3 - j]? = some (g.testBit j) := by
  interval_cases j <;> rfl

@[simp] theorem bcd_length (v d : Nat) : (bcd v d).length = 4 * d := by
  induction d with
  | zero => rfl
  | succ d ih => rw [bcd, List.length_append, nibble_length, ih]; omega

/-- The digits of higher weight come first. -/
theorem bcd_getElem? (v : Nat) {d k j : Nat} (hk : k < d) (hj : j < 4) :
    (bcd v d)[4 * (d - 1 - k) + (3 - j)]? = some ((v / 10 ^ k % 10).testBit j) := by
  induction d with
  | zero => omega
  | succ d ih =>
    rw [bcd]
    rcases Nat.lt_succ_iff_lt_or_eq.1 hk with hlt | rfl
    · have hpos : 4 * (d + 1 - 1 - k) + (3 - j) = 4 * (d - 1 - k) + (3 - j) + (nibble (v / 10 ^ d % 10)).length := by
        rw [nibble_length]; omega
      rw [hpos, List.getElem?_append_right (Nat.le_add_left _ _), Nat.add_sub_cancel]
      exact ih hlt
    · have hpos : 4 * (k + 1 - 1 - k) + (3 - j) = 3 - j := by omega
      rw [hpos, List.getElem?_append_left (by rw [nibble_length]; omega)]
      exact nibble_getElem? _ hj

/-- Settles O32. -/
theorem bcdGivesDigitsMostSignificantFirst : Obligations.BcdGivesDigitsMostSignificantFirst :=
  fun v d => ⟨bcd_length v d, fun _ _ hk hj => bcd_getElem? v hk hj⟩

/-! ## The slices of R56 to R59 -/

/-- A digit below `2 ^ (4 - k)` has its first `k` bits 0. -/
theorem nibble_eq_zeros_append_drop : ∀ k ≤ 4, ∀ g < 2 ^ (4 - k),
    nibble g = List.replicate k false ++ (nibble g).drop k := by decide

/-- What `last_(8-k)` drops of two digits' BCD is 0 where the tens digit is small. -/
theorem bcd_two_eq_zeros_append_lastK {v k : Nat} (hk : k ≤ 4) (hv : v / 10 % 10 < 2 ^ (4 - k)) :
    bcd v 2 = List.replicate k false ++ lastK (8 - k) (bcd v 2) := by
  have hdrop : (bcd v 2).length - (8 - k) = k := by rw [bcd_length]; omega
  have htens : bcd v 2 = nibble (v / 10 % 10) ++ bcd v 1 := by rw [bcd, pow_one]
  rw [lastK, hdrop, htens, List.drop_append_of_le_length (by rwa [nibble_length]), ← List.append_assoc,
    ← nibble_eq_zeros_append_drop k hk _ hv]

/-- Settles O33: the bounds of R76 keep each tens digit small enough. -/
theorem slicesDropOnlyZeroBits : Obligations.SlicesDropOnlyZeroBits := by
  rintro t ⟨hmonth, hday, hhour, hminute, -⟩
  refine ⟨?_, ?_, ?_, ?_⟩
  · exact bcd_two_eq_zeros_append_lastK (k := 3) (by decide) (by omega)
  · exact bcd_two_eq_zeros_append_lastK (k := 2) (by decide) (by omega)
  · exact bcd_two_eq_zeros_append_lastK (k := 2) (by decide) (by omega)
  · exact bcd_two_eq_zeros_append_lastK (k := 1) (by decide) (by omega)

/-! ## The weekday (R60, R61) -/

theorem binLsbFirst_testBits : ∀ n < 8, binLsbFirst [n.testBit 0, n.testBit 1, n.testBit 2] = n := by decide

theorem binLsbFirst_weekdayField (t : Timestamp) : binLsbFirst (weekdayField t) = weekday t :=
  binLsbFirst_testBits _ (by have := weekday_lt t; omega)

/-- Settles O34. -/
theorem weekdayIsConvertedToSundayZero : Obligations.WeekdayIsConvertedToSundayZero := by
  intro t hdow
  refine ⟨?_, binLsbFirst_weekdayField t, rfl⟩
  unfold weekday
  split_ifs <;> omega

/-! ## The value of a run of bits (R66) -/

theorem foldl_bits_eq (l : Bits) : ∀ acc : Nat,
    l.foldl (fun acc b => 2 * acc + b.toNat) acc = 2 ^ l.length * acc + bin l := by
  induction l with
  | nil => intro acc; simp [bin]
  | cons b l ih =>
    intro acc
    rw [bin, List.foldl_cons, List.foldl_cons, ih, ih, List.length_cons, pow_succ]
    ring

theorem bin_cons (b : Bool) (l : Bits) : bin (b :: l) = 2 ^ l.length * b.toNat + bin l := by
  rw [bin, List.foldl_cons, foldl_bits_eq, Nat.mul_zero, Nat.zero_add]

/-- The bits of `n` below weight `2 ^ k`, the most significant first. -/
def lowBits (n k : Nat) : Bits := (List.range k).reverse.map n.testBit

@[simp] theorem lowBits_length (n k : Nat) : (lowBits n k).length = k := by simp [lowBits]

theorem lowBits_succ (n k : Nat) : lowBits n (k + 1) = n.testBit k :: lowBits n k := by
  simp [lowBits, List.range_succ]

theorem bin_lowBits (n k : Nat) : bin (lowBits n k) = n % 2 ^ k := by
  induction k with
  | zero => simp [lowBits, bin, Nat.mod_one]
  | succ k ih =>
    rw [lowBits_succ, bin_cons, lowBits_length, ih, Nat.mod_pow_succ, Nat.toNat_testBit, Nat.add_comm]

/-- `dec` takes the last four bits as the units digit (R66). -/
theorem dec_append {hi lo : Bits} (h : lo.length = 4) : dec (hi ++ lo) = 10 * bin hi + bin lo := by
  have hlen : (hi ++ lo).length - 4 = hi.length := by simp [h]
  rw [dec, lastK, hlen, List.take_left, List.drop_left]

/-! ## Reading a frame back through the layout table -/

theorem mapM_eq_some_of_map_eq {α β : Type} {f : α → Option β} {l : List α} {bs : List β}
    (h : l.map f = bs.map some) : l.mapM f = some bs := by
  calc l.mapM f = (l.map f).mapM id := by rw [List.mapM_map]; rfl
    _ = bs.mapM some := by rw [h, List.mapM_map]; rfl
    _ = some bs := by rw [← Option.pure_def, List.mapM_pure]; simp

/-- The bit a slot carries for a timestamp; a marker carries none (R66). -/
def Slot.bit (t : Timestamp) (sl : Slot) : Option Bool := symbolBit (sl.symbol t)

theorem map_bit_slots (t : Timestamp) (fld : FrameField) (digit : Nat) (bits : List Nat) :
    (slots fld digit bits).map (Slot.bit t) = (bits.map (fld.value t / 10 ^ digit % 10).testBit).map some := by
  simp [slots, Slot.bit, Slot.symbol, Function.comp_def]

theorem encodeFrame_getElem?_bind_symbolBit (wp : WdayPos) (t : Timestamp) (p : Nat) :
    (encodeFrame wp t)[p]?.bind symbolBit = (layout wp)[p]?.bind (Slot.bit t) := by
  rw [getElem?_eq_toList, encodeFrame_toList_eq_layout, List.getElem?_map, Option.bind_map]
  rfl

/-- Which bits stand in a range of positions is the table's to say: the slots there depend on no timestamp. -/
theorem frameBits_encodeFrame {wp : WdayPos} {t : Timestamp} {a b : Nat} {sls : List Slot} {bits : Bits}
    (hslots : (List.range' a (b + 1 - a)).map ((layout wp)[·]?) = sls.map some)
    (hbits : sls.map (Slot.bit t) = bits.map some) : frameBits (encodeFrame wp t) a b = some bits := by
  apply mapM_eq_some_of_map_eq
  calc (List.range' a (b + 1 - a)).map (fun p => (encodeFrame wp t)[p]?.bind symbolBit)
      = ((List.range' a (b + 1 - a)).map ((layout wp)[·]?)).map (·.bind (Slot.bit t)) := by
        simp [encodeFrame_getElem?_bind_symbolBit]
    _ = bits.map some := by rw [hslots, List.map_map, ← hbits]; rfl

/-- The slots of a field with two decimal digits, of the tens digit its low `k` bits. -/
def fieldSlots (fld : FrameField) (k : Nat) : List Slot :=
  slots fld 1 (List.range k).reverse ++ slots fld 0 (List.range 4).reverse

theorem map_bit_fieldSlots (t : Timestamp) (fld : FrameField) (k : Nat) : (fieldSlots fld k).map (Slot.bit t) =
    (lowBits (fld.value t / 10 % 10) k ++ lowBits (fld.value t % 10) 4).map some := by
  rw [fieldSlots, List.map_append, map_bit_slots, map_bit_slots, List.map_append, pow_one, pow_zero, Nat.div_one]
  rfl

/-- A field whose value keeps within its slots reads back (R66). -/
theorem readBack_encodeFrame {wp : WdayPos} {t : Timestamp} {a b k : Nat} {fld : FrameField}
    (hslots : (List.range' a (b + 1 - a)).map ((layout wp)[·]?) = (fieldSlots fld k).map some)
    (hfits : 10 * (fld.value t / 10 % 10 % 2 ^ k) + fld.value t % 10 = fld.value t) :
    readBack (encodeFrame wp t) a b = some (fld.value t) := by
  have hunits : fld.value t % 10 % 2 ^ 4 = fld.value t % 10 := by omega
  rw [readBack, frameBits_encodeFrame hslots (map_bit_fieldSlots t fld k), Option.map_some,
    dec_append (lowBits_length _ 4), bin_lowBits, bin_lowBits, hunits, hfits]

theorem readBackWeekday_encodeFrame {wp : WdayPos} {a : Nat} (t : Timestamp)
    (hslots : (List.range' a (a + 2 + 1 - a)).map ((layout wp)[·]?) = (slots .weekday 0 (List.range 3)).map some) :
    readBackWeekday (encodeFrame wp t) a = some (weekday t) := by
  have hdigit : FrameField.weekday.value t / 10 ^ 0 % 10 = weekday t :=
    (Nat.mod_eq_of_lt (by have := weekday_lt t; simp [FrameField.value]; omega)).trans (Nat.div_one _)
  rw [readBackWeekday, frameBits_encodeFrame hslots (map_bit_slots t .weekday 0 (List.range 3)), Option.map_some,
    hdigit]
  exact congrArg some (binLsbFirst_weekdayField t)

/-! ## The fields that both layouts place alike -/

theorem readBack_year (wp : WdayPos) (t : Timestamp) : readBack (encodeFrame wp t) 1 8 = some (year2 t) := by
  have hlt : year2 t < 100 := Nat.mod_lt _ (by decide)
  exact readBack_encodeFrame (fld := .year2) (k := 4) (by cases wp <;> rfl) (by simp only [FrameField.value]; omega)

section
variable (wp : WdayPos) {t : Timestamp} (ht : inCalendar t)
include ht

theorem readBack_month : readBack (encodeFrame wp t) 10 14 = some t.month.toNat :=
  readBack_encodeFrame (fld := .month) (k := 1) (by cases wp <;> rfl) (by simp only [FrameField.value]; omega)

theorem readBack_day : readBack (encodeFrame wp t) 20 25 = some t.day.toNat :=
  readBack_encodeFrame (fld := .day) (k := 2) (by cases wp <;> rfl) (by simp only [FrameField.value]; omega)

theorem readBack_hour : readBack (encodeFrame wp t) 30 35 = some t.hour.toNat :=
  readBack_encodeFrame (fld := .hour) (k := 2) (by cases wp <;> rfl) (by simp only [FrameField.value]; omega)

theorem readBack_minute_of_p50 : readBack (encodeFrame .p50 t) 40 46 = some t.minute.toNat :=
  readBack_encodeFrame (fld := .minute) (k := 3) rfl (by simp only [FrameField.value]; omega)

end

/-- Settles O35. -/
theorem fieldsReadBackAtFifty : Obligations.FieldsReadBackAtFifty := fun t ht =>
  ⟨readBack_year .p50 t, readBack_month .p50 ht, readBack_day .p50 ht, readBack_hour .p50 ht,
    readBack_minute_of_p50 ht, readBackWeekday_encodeFrame t rfl⟩

/-! ## The minute with WDAY_POS = 45 (R44, R66, C9) -/

/-- The slots of positions 40 to 46 with WDAY_POS = 45: the weekday's bits 0 and 1 stand where the minute's units digit
has its bits 1 and 0. -/
def overlapSlots : List Slot := slots .minute 1 [2, 1, 0] ++ slots .minute 0 [3, 2] ++ slots .weekday 0 [0, 1]

/-- The units digit that an observer reads there. -/
def overlapDigit (u wd : Nat) : Bits := [u.testBit 3, u.testBit 2, wd.testBit 0, wd.testBit 1]

theorem map_bit_overlapSlots (t : Timestamp) : overlapSlots.map (Slot.bit t) =
    (lowBits (t.minute.toNat / 10 % 10) 3 ++ overlapDigit (t.minute.toNat % 10) (weekday t)).map some := by
  have hdigit : weekday t % 10 = weekday t := Nat.mod_eq_of_lt (by have := weekday_lt t; omega)
  simp [overlapSlots, map_bit_slots, FrameField.value, lowBits, List.range, List.range.loop, overlapDigit, hdigit]

theorem readBack_minute_of_p45 {t : Timestamp} (ht : inCalendar t) : readBack (encodeFrame .p45 t) 40 46 =
    some (10 * (t.minute.toNat / 10) + bin (overlapDigit (t.minute.toNat % 10) (weekday t))) := by
  have hslots : (List.range' 40 (46 + 1 - 40)).map ((layout .p45)[·]?) = overlapSlots.map some := rfl
  have htens : t.minute.toNat / 10 % 10 % 2 ^ 3 = t.minute.toNat / 10 := by omega
  rw [readBack, frameBits_encodeFrame hslots (map_bit_overlapSlots t), Option.map_some, dec_append rfl, bin_lowBits,
    htens]

theorem bin_eq_iff_low_bits (a b c d c' d' : Bool) : bin [a, b, c, d] = bin [a, b, c', d'] ↔ c = c' ∧ d = d' := by
  revert a b c d c' d'; decide

theorem testBit_eq_testBit_iff (m n i j : Nat) :
    m.testBit i = n.testBit j ↔ m / 2 ^ i % 2 = n / 2 ^ j % 2 := by
  rw [← Nat.toNat_testBit, ← Nat.toNat_testBit]
  cases m.testBit i <;> cases n.testBit j <;> decide

/-- The units digit survives exactly when the bits put over its two lowest agree with them. -/
theorem bin_overlapDigit_eq_iff {u : Nat} (hu : u < 16) (wd : Nat) :
    bin (overlapDigit u wd) = u ↔ u / 2 % 2 = wd % 2 ∧ u % 2 = wd / 2 % 2 := by
  conv_lhs => rhs; rw [← bin_nibble hu]
  rw [overlapDigit, nibble, bin_eq_iff_low_bits, testBit_eq_testBit_iff, testBit_eq_testBit_iff, pow_zero, pow_one,
    Nat.div_one, Nat.div_one, eq_comm (a := wd % 2), eq_comm (a := wd / 2 % 2)]

/-- Settles O36. -/
theorem minuteReadsBackAtFortyFiveExactlyWhen : Obligations.MinuteReadsBackAtFortyFiveExactlyWhen := by
  intro t ht
  refine ⟨readBack_year .p45 t, readBack_month .p45 ht, readBack_day .p45 ht, readBack_hour .p45 ht,
    readBackWeekday_encodeFrame t rfl, ?_, by rw [readBack_minute_of_p45 ht]; rfl⟩
  rw [readBack_minute_of_p45 ht, Option.some_inj]
  refine Iff.trans ?_ (bin_overlapDigit_eq_iff (u := t.minute.toNat % 10) (by omega) (weekday t))
  omega

/-! ## The frame is a function of the fields (R55, R64) -/

/-- Of the year only its value mod 100 enters the frame. -/
theorem encodeFrame_congr {t t' : Timestamp} (hyear : t.year.toNat % 100 = t'.year.toNat % 100)
    (hmonth : t.month = t'.month) (hday : t.day = t'.day) (hhour : t.hour = t'.hour) (hminute : t.minute = t'.minute)
    (hdow : t.dow = t'.dow) (wp : WdayPos) : encodeFrame wp t = encodeFrame wp t' := by
  simp only [encodeFrame, yearField, year2, monthField, dayField, hourField, minuteField, weekdayField, weekday, hyear,
    hmonth, hday, hhour, hminute, hdow]

/-- Settles O37. -/
theorem encodeIsPure : Obligations.EncodeIsPure := by
  intro t t' s s' u u' ht hcfg hyear hmonth hday hhour hminute hdow h h'
  have ht' : inCalendar t' := by simpa only [inCalendar, hmonth, hday, hhour, hminute, hdow] using ht
  rw [frame_of_exec_encode ht h, frame_of_exec_encode ht' h', hcfg,
    encodeFrame_congr hyear hmonth hday hhour hminute hdow]
  exact ⟨rfl, rfl⟩

end Sys2Proof.Machine

/-! # What a run does to FRAME and VALID (spec/10_state.md R18, R20; spec/41_frame_access.md R67, R74;
spec/70_reset_and_hazards.md R90, R95) -/

namespace Sys2Proof.Machine

/-- Settles O23. -/
theorem frameIsWrittenOnlyByEncode : Obligations.FrameIsWrittenOnlyByEncode := by
  intro e s t he h hchanged
  obtain rfl := eq_afterEvent_of_step he h
  rcases e with _ | ⟨_ | ts | _ | pos⟩
  · exact .inr ⟨.inl rfl, rfl⟩
  · exact absurd rfl hchanged
  · by_cases hts : inCalendar ts
    · exact .inl ⟨ts, rfl, hts, by simp [afterEvent_encode_of_inCalendar hts]⟩
    · simp [afterEvent_encode_of_not_inCalendar hts] at hchanged
  · exact .inr ⟨.inr rfl, rfl⟩
  · exact absurd (afterEvent_keeps_frame (e := .command (.read pos)) rfl s.restInputs).1 hchanged

/-! ## Along a sequence of events -/

theorem afterEvents_append (evs later : List Event) (s : State) :
    afterEvents (evs ++ later) s = afterEvents later (afterEvents evs s) := List.foldl_append

/-- NOPs and READs keep FRAME and VALID, however many (R20, R67). -/
theorem afterEvents_keeps_frame {evs : List Event} (h : ∀ e ∈ evs, eventEndsFrame e = false) :
    ∀ s : State, (afterEvents evs s).frame = s.frame ∧ (afterEvents evs s).valid = s.valid := by
  induction evs with
  | nil => exact fun _ => ⟨rfl, rfl⟩
  | cons e evs ih =>
    intro s
    obtain ⟨hframe, hvalid⟩ := afterEvent_keeps_frame (h e List.mem_cons_self) s
    rw [afterEvents_cons, ← hframe, ← hvalid]
    exact ih (fun x hx => h x (List.mem_cons_of_mem e hx)) (afterEvent e s)

theorem eventEndsFrame_eq_false_iff {e : Event} :
    eventEndsFrame e = false ↔ e = .command .nop ∨ ∃ pos, e = .command (.read pos) := by
  rcases e with _ | ⟨_ | ts | _ | pos⟩ <;> simp [eventEndsFrame]

/-- Settles O44. -/
theorem readsNeverChangeFrameOrValid : Obligations.ReadsNeverChangeFrameOrValid := by
  intro s ins later evs hpres hreads hin
  obtain ⟨hframe, hvalid⟩ := afterEvents_keeps_frame (fun e he => eventEndsFrame_eq_false_iff.2 (hreads e he)) s
  exact ⟨_, run_presents hpres hin, hframe, hvalid, afterEvents_cfg evs s, rfl⟩

/-! ## The ENCODE whose frame is valid (R74) -/

/-- In this sequence the ENCODE of `ts` succeeds and nothing after it ends the validity of its frame. -/
def LastEncode (evs : List Event) (ts : Timestamp) : Prop :=
  ∃ before after, evs = before ++ .command (.encode ts) :: after ∧ inCalendar ts ∧
    ∀ e ∈ after, eventEndsFrame e = false

theorem afterEvents_of_lastEncode {evs : List Event} {ts : Timestamp} (h : LastEncode evs ts) (s : State) :
    (afterEvents evs s).valid = true ∧ (afterEvents evs s).frame = some (encodeFrame s.cfg.wdayPos ts) := by
  obtain ⟨before, after, rfl, hts, hafter⟩ := h
  rw [afterEvents_append, afterEvents_cons, afterEvent_encode_of_inCalendar hts]
  obtain ⟨hframe, hvalid⟩ :=
    afterEvents_keeps_frame hafter
      ((afterEvents before s).loadFrame (encodeFrame (afterEvents before s).cfg.wdayPos ts))
  rw [hframe, hvalid, afterEvents_cfg]
  exact ⟨rfl, rfl⟩

theorem LastEncode.concat {evs : List Event} {ts : Timestamp} {e : Event} (h : LastEncode evs ts)
    (he : eventEndsFrame e = false) : LastEncode (evs ++ [e]) ts := by
  obtain ⟨before, after, rfl, hts, hafter⟩ := h
  refine ⟨before, after ++ [e], by simp, hts, fun x hx => ?_⟩
  rcases List.mem_append.1 hx with hx | hx
  · exact hafter x hx
  · rwa [List.mem_singleton.1 hx]

/-- Where VALID = 1 was not given at the start, it is the last ENCODE's. -/
theorem exists_lastEncode_of_valid {evs : List Event} {s : State} (hs : s.valid = false)
    (h : (afterEvents evs s).valid = true) : ∃ ts, LastEncode evs ts := by
  induction evs using List.reverseRecOn with
  | nil => simp [hs] at h
  | append_singleton evs e ih =>
    rw [afterEvents_concat, afterEvent_valid_iff] at h
    rcases h with ⟨ts, rfl, hts⟩ | ⟨hvalid, hkeep⟩
    · exact ⟨ts, evs, [], rfl, hts, by simp⟩
    · obtain ⟨ts, hlast⟩ := ih hvalid
      exact ⟨ts, hlast.concat (eventEndsFrame_eq_false_iff.2 hkeep)⟩

/-- Settles O26. -/
theorem validFrameIsTheLastEncodes : Obligations.ValidFrameIsTheLastEncodes := by
  intro c ins later evs hpres
  refine ⟨_, run_presents hpres rfl, rfl, ⟨fun h => ?_, ?_⟩, ?_⟩
  · obtain ⟨ts, before, after, hlast⟩ := exists_lastEncode_of_valid rfl h
    exact ⟨before, ts, after, hlast⟩
  · rintro ⟨before, ts, after, hlast⟩
    exact (afterEvents_of_lastEncode ⟨before, after, hlast⟩ _).1
  · intro before ts after hevs hts hafter
    exact (afterEvents_of_lastEncode ⟨before, after, hevs, hts, hafter⟩ _).2

/-! ## After reset (R90, R95) -/

theorem faultOf_read_of_not_valid {pos : BitVec 6} {s : State} (hpos : pos.toNat < 60) (hs : s.valid = false) :
    faultOf (.read pos) s = .noFrame := by
  simp only [faultOf, frameHeld_of_not_valid hs, readOperand_of_not_held hpos]

/-- Settles O28: without a last ENCODE, VALID is 0. -/
theorem readReportsNoFrameUntilAnEncode : Obligations.ReadReportsNoFrameUntilAnEncode := by
  intro c ins evs pos hpres hpos hnone
  refine ⟨_, run_presents hpres (List.append_nil ins).symm, faultOf_read_of_not_valid hpos ?_⟩
  rw [← Bool.not_eq_true]
  intro hvalid
  obtain ⟨ts, before, after, rfl, hts, -⟩ := exists_lastEncode_of_valid rfl hvalid
  exact hnone ts (by simp) hts

/-- A successful ENCODE does not clear what a faulting one recorded (R63, R82). -/
theorem afterEvents_encode_fault_then_success {bad good : Timestamp} (hbad : ¬inCalendar bad) (hgood : inCalendar good)
    {s : State} (hs : s.err = false) :
    let t := afterEvents [.command (.encode bad), .command (.encode good)] s
    t.valid = true ∧ t.err = true ∧ t.errcause = encodeCheck bad := by
  simp [afterEvent_encode_of_not_inCalendar hbad, afterEvent_encode_of_inCalendar hgood, hs]

/-- Settles O46: minute 60 faults, and minute 4 does not. -/
theorem validWithErrIsReachable : Obligations.ValidWithErrIsReachable := by
  have hbad : encodeCheck ⟨2024, 1, 7, 3, 60, 6⟩ = .minuteRange := by decide
  refine ⟨[.encode ⟨2024, 1, 7, 3, 60, 6⟩, .encode ⟨2024, 1, 7, 3, 4, 6⟩].map commandInput, _,
    run_presents (presents_commandInput _) (List.append_nil _).symm, ?_⟩
  rw [← hbad]
  exact afterEvents_encode_fault_then_success (by decide) (by decide) rfl

/-! ## READALL (R51, R67) -/

/-- The READ of a position, as READALL presents it. -/
def readInput (p : Nat) : StepInput := commandInput (.read (BitVec.ofNat 6 p))

theorem step_readInput {s : State} {f : Frame} {p : Nat} {rest : List StepInput} (hp : p < 60)
    (hheld : s.frameHeld = some f) (hin : s.inputs = readInput p :: rest) :
    step s = .next (s.restInputs.driveRdSym f[p]) := by
  have hpos : (BitVec.ofNat 6 p).toNat = p := by rw [BitVec.toNat_ofNat]; omega
  have hnext : s.nextEvent = .ok (.command (.read (BitVec.ofNat 6 p))) := by
    simp only [State.nextEvent, hin]
    exact eventOf_word_of_decode (decode_encode _)
  rw [step_eq hnext, afterEvent_read_of_held (by rwa [hpos]) (s := s.restInputs) hheld]
  simp only [hpos]

/-- The symbols' codes appear on `rd_sym` in the order of the READs, each in its READ's step. -/
theorem observations_reads {f : Frame} {later : List StepInput} (ps : List Nat) : ∀ s : State,
    (∀ p ∈ ps, p < 60) → s.frameHeld = some f → s.inputs = ps.map readInput ++ later →
    (observations ps.length s).map Observation.rdSym = ps.map fun p => f[p]?.map symbolCode := by
  induction ps with
  | nil => intro s _ _ _; rfl
  | cons p ps ih =>
    intro s hps hheld hin
    have hp : p < 60 := hps p List.mem_cons_self
    have hrest : (s.restInputs.driveRdSym f[p]).inputs = ps.map readInput ++ later := by
      simp [State.restInputs, hin]
    have hlater := ih (s.restInputs.driveRdSym f[p]) (fun q hq => hps q (List.mem_cons_of_mem p hq)) hheld hrest
    simp [observations, step_readInput hp hheld hin, hlater, State.observe, hp]

/-- Settles O45. -/
theorem readAllReturnsTheFrame : Obligations.ReadAllReturnsTheFrame := by
  intro s f later hvalid hframe hin
  have h := observations_reads (List.range 60) s (by simp) (frameHeld_of_valid hvalid hframe) hin
  rw [List.length_range] at h
  rw [h]
  exact List.ext_getElem (by simp) fun p hp _ => by simp at hp; simp [hp]

end Sys2Proof.Machine

/-! # Lines of the assembler (spec/30_encoding.md R51) -/

namespace Sys2Proof.Machine

theorem assembleLine_isSome_iff (l : AsmLine) : (assembleLine l).toOption.isSome = true ↔ l.wf = true := by
  unfold assembleLine
  split_ifs with h
  · simp [Except.toOption, h]
  · simp [Except.toOption, h]

theorem assembleLine_eq_ok_iff {l : AsmLine} {ins : List StepInput} :
    assembleLine l = .ok ins ↔ l.wf = true ∧ lineInputs l = ins := by
  unfold assembleLine
  split_ifs with h <;> simp [h]

theorem wf_encode_iff (y mo d h mi dow : Nat) : (AsmLine.encode y mo d h mi dow).wf = true ↔
    y ≤ 65535 ∧ mo ≤ 15 ∧ d ≤ 31 ∧ h ≤ 31 ∧ mi ≤ 63 ∧ dow ≤ 7 := by
  simp only [AsmLine.wf, fitsPort, Bool.and_eq_true, decide_eq_true_eq]
  omega

theorem wf_read_iff (pos : Nat) : (AsmLine.read pos).wf = true ↔ pos ≤ 63 := by
  simp only [AsmLine.wf, fitsPort, decide_eq_true_eq]
  omega

/-- Settles O47. -/
theorem oversizeOperandsDoNotAssemble : Obligations.OversizeOperandsDoNotAssemble := by
  refine ⟨fun y mo d h mi dow => ?_, fun pos => ?_, ?_⟩
  · rw [assembleLine_isSome_iff, wf_encode_iff]
  · rw [assembleLine_isSome_iff, wf_read_iff]
  · rintro l (rfl | rfl | rfl | rfl)
    · rfl
    · rfl
    · rfl
    · rfl

/-- Settles O48: an operand that fits its port is the number its port carries. -/
theorem assembledLinesPresentTheirCommands : Obligations.AssembledLinesPresentTheirCommands := by
  refine ⟨?_, ?_, ?_, ?_, ?_, ?_⟩
  · intro y mo d h mi dow ins hl
    obtain ⟨hwf, rfl⟩ := assembleLine_eq_ok_iff.1 hl
    obtain ⟨hy, hmo, hd, hh, hmi, hdow⟩ := (wf_encode_iff y mo d h mi dow).1 hwf
    refine ⟨_, presents_commandInput [.encode _], ?_⟩
    simp only [BitVec.toNat_ofNat]
    omega
  · intro pos ins hl
    obtain ⟨hwf, rfl⟩ := assembleLine_eq_ok_iff.1 hl
    have hpos := (wf_read_iff pos).1 hwf
    refine ⟨_, presents_commandInput [.read _], ?_⟩
    rw [BitVec.toNat_ofNat]
    omega
  · exact presents_commandInput [.clear]
  · exact presents_commandInput [.nop]
  · rfl
  · have hreads := presents_commandInput ((List.range 60).map fun p => .read (BitVec.ofNat 6 p))
    rw [List.map_map, List.map_map] at hreads
    exact hreads

end Sys2Proof.Machine
